-- ==== Sys2Proof/Word.lean ====
section
/-! DEFINITION. The word types of BLOBPACK: register words, buffer bytes and field elements (00_scope.md R6, R9). -/

namespace Sys2Proof

/-- A register word, a command word: `REG_BITS = 32` (00_scope.md R6; 10_state.md R21). -/
abbrev Word := BitVec 32

/-- One byte of the buffer memory (20_memory.md R61). -/
abbrev Byte := BitVec 8

/-- A field element or chunk, as a stored value: `FE_BITS = 256` (00_scope.md R6). -/
abbrev FieldElement := BitVec 256

end Sys2Proof
end

