-- ==== Sys2Proof/Config.lean ====
section
/-! DEFINITION. The parameters an instance is built with (00_scope.md R6) and the free values the spec leaves open. -/

namespace Sys2Proof

/-- The parameters of one BLOBPACK instance (00_scope.md R6). They are fixed when the instance is built and no step
changes them. `Config.ok` (WellFormed.lean) is the check of R7. -/
structure Config where
  /-- `N_ELEMENTS`, the number of field elements per blob. -/
  nElements : Nat
  /-- `BUF_BYTES`, the size of the buffer memory in bytes. -/
  bufBytes : Nat
  /-- `MODULUS`, the bound of field elements; read by no rule that computes a value (40_packer.md R107). -/
  modulus : Nat
  deriving DecidableEq, Repr

/-- The configuration of `State.reset`. `N_ELEMENTS` is the spec's default (R6, D3) and `MODULUS` the spec's default
(D4, G1). DESIGN CHOICE (unsafe, log 1): `BUF_BYTES` is open (D5); the larger size of the spec's test vectors is
taken, so that a blob fits. -/
def Config.default : Config where
  nElements := 4096
  bufBytes := 1048576
  modulus := 0x73eda753299d7d483339d80809a1d80553bda402fffe5bfeffffffff00000001

/-- FREE VALUE (log 14). `Config.freeByte k a` is the byte that draw number `k` gives for buffer address `a`. It stands
for every value the spec calls unspecified: BUF after a reset (U1), both ranges after a host write into a running
command (U2), a host read of a running command's destination (U3). No body: nothing can prove a value of it. -/
opaque Config.freeByte : Nat → Nat → Byte

end Sys2Proof
end

