-- ==== Sys2Proof/Syntax.lean ====
section
/-! DEFINITION. The commands of BLOBPACK, one constructor per row of spec/opcode_table.json (30_encoding.md R82, R90). -/

namespace Sys2Proof

/-- The twelve legal commands. A command word holds no operand but MODE (30_encoding.md R84), which is part of the
mnemonic (R90): the suffix `T` is tight (`.t`, MODE = 0) and `N` is naive (`.n`, MODE = 1). -/
inductive Instr where
  /-- `pack.t` (40_packer.md R120). -/
  | packT
  /-- `pack.n` (40_packer.md R120). -/
  | packN
  /-- `unpack.t` (40_packer.md R121). -/
  | unpackT
  /-- `unpack.n` (40_packer.md R121). -/
  | unpackN
  /-- `assemble.t`, also written `assemble` (41_assembler.md R150). -/
  | assembleT
  /-- `assemble.n` (41_assembler.md R150). -/
  | assembleN
  /-- `disassemble.t`, also written `disassemble` (41_assembler.md R151). -/
  | disassembleT
  /-- `disassemble.n` (41_assembler.md R151). -/
  | disassembleN
  /-- `encode.t` (41_assembler.md R152). -/
  | encodeT
  /-- `encode.n` (41_assembler.md R152). -/
  | encodeN
  /-- `decode.t` (41_assembler.md R153). -/
  | decodeT
  /-- `decode.n` (41_assembler.md R153). -/
  | decodeN
  deriving DecidableEq, Repr

/-- The mnemonic of a command (30_encoding.md R90). -/
def Instr.mnemonic : Instr → String
  | .packT => "pack.t"
  | .packN => "pack.n"
  | .unpackT => "unpack.t"
  | .unpackN => "unpack.n"
  | .assembleT => "assemble.t"
  | .assembleN => "assemble.n"
  | .disassembleT => "disassemble.t"
  | .disassembleN => "disassemble.n"
  | .encodeT => "encode.t"
  | .encodeN => "encode.n"
  | .decodeT => "decode.t"
  | .decodeN => "decode.n"

end Sys2Proof
end

