-- ==== Sys2Proof/WellFormed.lean ====
section
/-! DEFINITION. What is well formed: a configuration (00_scope.md R7), a command word (30_encoding.md R86) and a command. -/

namespace Sys2Proof

/-- The bounds of 00_scope.md R7. A configuration that breaks one is not a BLOBPACK configuration. That `MODULUS` is
prime (R6) is not among R7's conditions and is not checked (log 2). -/
abbrev Config.ok (c : Config) : Prop :=
  (1 ≤ c.nElements ∧ c.nElements ≤ 2 ^ 32 - 1) ∧ (1 ≤ c.bufBytes ∧ c.bufBytes ≤ 2 ^ 32 - 1) ∧ 2 ^ 254 < c.modulus

/-- Whether a command word is legal: `RSV` is zero and `OP` is in 0x1 to 0x6 (30_encoding.md R86, R87). -/
abbrev legalWord (v : Word) : Prop :=
  v.extractLsb' 5 27 = 0#27 ∧ 1 ≤ (v.extractLsb' 0 4).toNat ∧ (v.extractLsb' 0 4).toNat ≤ 6

/-- A command has no operand that could be ill formed: both values of MODE are legal for every opcode
(30_encoding.md R83, R85). -/
def Instr.wellFormed : Instr → Bool
  | .packT | .packN | .unpackT | .unpackN | .assembleT | .assembleN => true
  | .disassembleT | .disassembleN | .encodeT | .encodeN | .decodeT | .decodeN => true

end Sys2Proof
end

