-- ==== Sys2Proof/Machine/State.lean ====
section
/-! DEFINITION. The state of one BLOBPACK instance with its host (10_state.md), and the state after reset. -/

namespace Sys2Proof.Machine

/-- The buffer memory as the bytes written since the last reset (20_memory.md R61). In canonical form (`Memory.wf`)
the addresses rise strictly. An unlisted address has not been written since the last reset: it has no value of its own
and reads as that reset's draw (70_reset_and_hazards.md R211; log 3). -/
abbrev Memory := List Host.Cell

/-- The canonical form of a memory: addresses strictly rising. No entry equals what an unlisted address holds, since
an unlisted address holds no value (log 3). -/
abbrev Memory.wf (m : Memory) : Prop := m.Pairwise (fun c d => c.1 < d.1)

/-- The operand latch (10_state.md R39). -/
structure Latch where
  /-- `L.op`, the opcode. -/
  op : BitVec 4
  /-- `L.mode`, the packing mode. -/
  mode : BitVec 1
  /-- `L.rsv`, bits [31:5] of the command word. -/
  rsv : BitVec 27
  /-- `L.src`. -/
  src : Word
  /-- `L.dst`. -/
  dst : Word
  /-- `L.len`. -/
  len : Word
  /-- `L.count`. -/
  count : Word
  /-- `L.nblobs`. -/
  nblobs : Word
  deriving DecidableEq, Repr

/-- One action of the host's script on the two ports (30_encoding.md R91, R92). -/
inductive HostAction where
  /-- A register-port write of a word to a slot (`wr`, `<op>.<m>`, `cmd`). -/
  | writeReg (slot : BitVec 4) (v : Word)
  /-- A register-port read of a slot (`rd`). -/
  | readReg (slot : BitVec 4)
  /-- A buffer-port write of one byte (one byte of `sb`). -/
  | writeByte (addr : Nat) (v : Byte)
  /-- A buffer-port read of one byte (one byte of `lb`). -/
  | readByte (addr : Nat)
  /-- Polls STATUS until BUSY is 0 (`wait`). -/
  | wait
  /-- Reads STATUS and fails the script unless it equals `v` (`check`). -/
  | check (v : Word)
  deriving DecidableEq, Repr

/-- What a read of the host returned. -/
inductive Observation where
  /-- A register-port read of a slot returned a word. -/
  | reg (slot : BitVec 4) (v : Word)
  /-- A buffer-port read of an address returned a byte. -/
  | byte (addr : Nat) (v : Byte)
  deriving DecidableEq, Repr

/-- Who moves next: the scheduler's choice (60_exceptions.md R191, U13), the reset input included
(70_reset_and_hazards.md R210). -/
inductive Turn where
  /-- The host performs the next action of its script. -/
  | host
  /-- The engine performs its step if it has one. -/
  | engine
  /-- The reset input is asserted. -/
  | resetAssert
  /-- The reset input is released. -/
  | resetRelease
  deriving DecidableEq, Repr

/-- The machine. The first group is the spec's own state (10_state.md R20), with the configuration it was built with;
the second group is the model's: the free-value counters, the reset input, the scheduler and the host. -/
structure State where
  /-- The parameters of the instance (00_scope.md R6). No step changes them (log 1). -/
  cfg : Config
  /-- CMD, the last accepted command word (R22). -/
  cmd : Word
  /-- STATUS (R23); its fields are read and written by Flags.lean. -/
  status : Word
  /-- SRC (R28). -/
  src : Word
  /-- DST (R29). -/
  dst : Word
  /-- LEN (R30). -/
  len : Word
  /-- COUNT (R31). -/
  count : Word
  /-- NBLOBS (R32). -/
  nblobs : Word
  /-- OUTLEN (R33). -/
  outlen : Word
  /-- BUF, the bytes written since the last reset (20_memory.md R61). -/
  buf : Memory
  /-- The operand latch; `none` is "invalid" (R39, 60_exceptions.md R189). -/
  latch : Option Latch
  /-- The model's: the host has written a byte of either range of the running command (R215; log 8). -/
  hazard : Bool
  /-- The model's: the draw that unlisted bytes of BUF read (R211; log 3). -/
  bufDraw : Nat
  /-- The model's: the next unused draw (log 14). -/
  draws : Nat
  /-- The model's: the reset input is asserted (R210; log 7). -/
  resetLine : Bool
  /-- The model's: the scheduler's choices still to come (U13; log 4). -/
  turns : List Turn
  /-- The model's: what the host still has to do (30_encoding.md R91; log 5). -/
  script : List HostAction
  /-- The model's: what the host's reads returned, newest first (log 5). -/
  seen : List Observation
  /-- The model's: a `check` of the script failed (30_encoding.md R92; log 13). -/
  checkFailed : Bool
  deriving DecidableEq, Repr

/-- BLOBPACK has no behaviour that stops it with a fault: an error is a code in STATUS (60_exceptions.md R180, R187).
So no fault is ever raised, and the type has no constructor. -/
inductive Fault where
  deriving DecidableEq, Repr

/-- Why the model gives no next state. -/
inductive Refusal where
  /-- An instruction without a meaning; raised by `exec`'s rejected arms only (none is left). Safe. -/
  | notModelled (mnemonic : String)
  /-- The configuration breaks 00_scope.md R7, "a model should refuse it"; raised by `step`. Safe. -/
  | configOutOfRange
  /-- A command would read the operand latch while it is invalid: U4, `refuse`; raised by every command. Safe. -/
  | latchInvalid
  deriving DecidableEq, Repr

/-- An instance with configuration `c`, right after reset (10_state.md R42; 70_reset_and_hazards.md R210 to R212):
every register 0, the latch invalid, no byte of BUF written. The model's own fields hold the values of log 20. -/
def State.resetWith (c : Config) : State where
  cfg := c
  cmd := 0#32
  status := 0#32
  src := 0#32
  dst := 0#32
  len := 0#32
  count := 0#32
  nblobs := 0#32
  outlen := 0#32
  buf := []
  latch := none
  hazard := false
  bufDraw := 0
  draws := 1
  resetLine := false
  turns := []
  script := []
  seen := []
  checkFailed := false

/-- The machine right after reset, in the default configuration (log 1). -/
def State.reset : State := State.resetWith Config.default

end Sys2Proof.Machine
end

