-- ==== Sys2Proof/Machine/Flags.lean ====
section
/-! DEFINITION. The fields of STATUS and how each procedure writes them (10_state.md R23 to R27). -/

namespace Sys2Proof.Machine

/-- The error codes of STATUS.ERR (60_exceptions.md R181). Codes 6 to 15 are never produced (U10). -/
inductive ErrCode where
  /-- `E_NONE`: success. -/
  | none
  /-- `E_LENGTH_MISMATCH` (R182). -/
  | lengthMismatch
  /-- `E_CHUNK_COUNT_MISMATCH` (R183). -/
  | chunkCountMismatch
  /-- `E_ILLEGAL_CMD` (R184). -/
  | illegalCmd
  /-- `E_BOUNDS` (R185). -/
  | bounds
  /-- `E_OVERLAP` (R186). -/
  | overlap
  deriving DecidableEq, Repr

/-- The 4-bit code of an error (60_exceptions.md R181). -/
def errBits : ErrCode → BitVec 4
  | .none => 0#4
  | .lengthMismatch => 1#4
  | .chunkCountMismatch => 2#4
  | .illegalCmd => 3#4
  | .bounds => 4#4
  | .overlap => 5#4

/-- STATUS.BUSY, bit [0] (10_state.md R23, R24). -/
def statusBusy (w : Word) : Bool := w.getLsbD 0

/-- STATUS.DONE, bit [1] (10_state.md R23, R25). -/
def statusDone (w : Word) : Bool := w.getLsbD 1

/-- STATUS.WERR, bit [2] (10_state.md R23, R26). -/
def statusWerr (w : Word) : Bool := w.getLsbD 2

/-- STATUS.ERR, bits [7:4] (10_state.md R23, R27). -/
def statusErr (w : Word) : BitVec 4 := w.extractLsb' 4 4

/-- Writes one bit of a word. -/
def writeBit (k : Nat) (b : Bool) (w : Word) : Word :=
  if b then w ||| (1#32 <<< k) else w &&& ~~~(1#32 <<< k)

/-- Writes STATUS.ERR, bits [7:4]. -/
def writeErr (e : BitVec 4) (w : Word) : Word :=
  (w &&& ~~~0xF0#32) ||| (e.setWidth 32 <<< 4)

/-- STATUS after the acceptance of a command: BUSY 1, DONE 0, WERR 0, ERR 0 (60_exceptions.md R190). -/
def statusAccepted (w : Word) : Word :=
  writeErr 0#4 (writeBit 2 false (writeBit 1 false (writeBit 0 true w)))

/-- STATUS after the completion of a command with code `e`: BUSY 0, DONE 1, ERR `e`, WERR unchanged
(60_exceptions.md R189). -/
def statusCompleted (e : ErrCode) (w : Word) : Word :=
  writeErr (errBits e) (writeBit 1 true (writeBit 0 false w))

/-- STATUS after a dropped register write: WERR 1 (60_exceptions.md R192). -/
def statusDropped (w : Word) : Word := writeBit 2 true w

/-- Whether a command is in flight (10_state.md R24). -/
def State.busy (s : State) : Bool := statusBusy s.status

end Sys2Proof.Machine
end

