-- ==== Sys2Proof/Machine/Operands.lean ====
section
/-! DEFINITION. The operands of the commands: the packing mode, the ranges of 20_memory.md R63, the checks of
60_exceptions.md R188. Every number is an exact natural number (00_scope.md R9). -/

namespace Sys2Proof.Machine

/-- The packing mode (30_encoding.md R83). -/
inductive Mode where
  /-- MODE = 0, 254 usable bits. -/
  | tight
  /-- MODE = 1, 248 usable bits. -/
  | naive
  deriving DecidableEq, Repr

/-- The six commands, the rows of 30_encoding.md R82. -/
inductive Command where
  /-- PACK (40_packer.md R120). -/
  | pack
  /-- UNPACK (40_packer.md R121). -/
  | unpack
  /-- ASSEMBLE (41_assembler.md R150). -/
  | assemble
  /-- DISASSEMBLE (41_assembler.md R151). -/
  | disassemble
  /-- ENCODE (41_assembler.md R152). -/
  | encode
  /-- DECODE (41_assembler.md R153). -/
  | decode
  deriving DecidableEq, Repr

/-- The width of a chunk: 254 tight, 248 naive (00_scope.md R8; 30_encoding.md R83). -/
def usableBits : Mode → Nat
  | .tight => 254
  | .naive => 248

/-- The command an instruction selects (30_encoding.md R82). -/
def commandOf : Instr → Command
  | .packT | .packN => .pack
  | .unpackT | .unpackN => .unpack
  | .assembleT | .assembleN => .assemble
  | .disassembleT | .disassembleN => .disassemble
  | .encodeT | .encodeN => .encode
  | .decodeT | .decodeN => .decode

/-- The mode an instruction selects (30_encoding.md R83, R90). -/
def modeOf : Instr → Mode
  | .packT | .unpackT | .assembleT | .disassembleT | .encodeT | .decodeT => .tight
  | .packN | .unpackN | .assembleN | .disassembleN | .encodeN | .decodeN => .naive

/-- `ceil_div(a, b)` for `b ≥ 1`: the least `q` with `q * b ≥ a` (00_scope.md R11). -/
def ceilDiv (a b : Nat) : Nat := (a + b - 1) / b

/-- `chunk_count(L, w)`: the chunks of a payload of `len` bytes (40_packer.md R101). -/
def chunkCount (len w : Nat) : Nat := ceilDiv (8 * len) w

/-- `nblobs(m)`: the blobs of `m` chunks, at least one (41_assembler.md R142). -/
def blobCount (n m : Nat) : Nat := max 1 (ceilDiv m n)

/-- A range of BUF: `[base, base + size)` (20_memory.md R67). -/
structure Range where
  /-- The first address. -/
  base : Nat
  /-- The number of bytes. -/
  size : Nat
  deriving DecidableEq, Repr

/-- Whether an address lies in a range. -/
def Range.has (r : Range) (a : Nat) : Bool := decide (r.base ≤ a ∧ a < r.base + r.size)

/-- In bounds: the end is at most `BUF_BYTES`, computed exactly (20_memory.md R67). -/
def Range.inBounds (r : Range) (bufBytes : Nat) : Bool := decide (r.base + r.size ≤ bufBytes)

/-- Overlap of a source and a destination range; an empty range overlaps nothing (20_memory.md R68). -/
def Range.overlaps (s d : Range) : Bool :=
  decide (0 < s.size ∧ 0 < d.size ∧ s.base < d.base + d.size ∧ d.base < s.base + s.size)

/-- `n_src`, the size of a command's source range (20_memory.md R63). -/
def srcSize (c : Command) (cfg : Config) (l : Latch) : Nat :=
  match c with
  | .pack | .encode => l.len.toNat
  | .unpack | .assemble => 32 * l.count.toNat
  | .disassemble | .decode => 32 * cfg.nElements * l.nblobs.toNat

/-- `n_dst`, the size of a command's destination range (20_memory.md R63). -/
def dstSize (c : Command) (m : Mode) (cfg : Config) (l : Latch) : Nat :=
  match c with
  | .pack => 32 * chunkCount l.len.toNat (usableBits m)
  | .unpack | .decode => l.len.toNat
  | .assemble => 32 * cfg.nElements * blobCount cfg.nElements l.count.toNat
  | .disassemble => 32 * l.count.toNat
  | .encode => 32 * cfg.nElements * blobCount cfg.nElements (chunkCount l.len.toNat (usableBits m))

/-- The source range of a command (20_memory.md R63). -/
def srcRange (c : Command) (cfg : Config) (l : Latch) : Range := ⟨l.src.toNat, srcSize c cfg l⟩

/-- The destination range of a command (20_memory.md R63). -/
def dstRange (c : Command) (m : Mode) (cfg : Config) (l : Latch) : Range := ⟨l.dst.toNat, dstSize c m cfg l⟩

/-- The source's value error of a command, which depends on registers only (60_exceptions.md R182, R183); `none` where
its condition does not hold or the command has none (R187). -/
def valueError (c : Command) (m : Mode) (cfg : Config) (l : Latch) : ErrCode :=
  match c with
  | .pack | .assemble | .encode => .none
  | .unpack => if 8 * l.len.toNat > l.count.toNat * usableBits m then .lengthMismatch else .none
  | .disassemble => if l.count.toNat > cfg.nElements * l.nblobs.toNat then .chunkCountMismatch else .none
  | .decode =>
    if chunkCount l.len.toNat (usableBits m) > cfg.nElements * l.nblobs.toNat then .chunkCountMismatch else .none

/-- The error a command ends with, or `none` for success: value error, then bounds, then overlap (60_exceptions.md
R188). An illegal word never gets here (R184). -/
def commandError (c : Command) (m : Mode) (cfg : Config) (l : Latch) : ErrCode :=
  if valueError c m cfg l ≠ .none then valueError c m cfg l
  else if ¬ ((srcRange c cfg l).inBounds cfg.bufBytes ∧ (dstRange c m cfg l).inBounds cfg.bufBytes) then .bounds
  else if (srcRange c cfg l).overlaps (dstRange c m cfg l) then .overlap
  else .none

end Sys2Proof.Machine
end

