-- ==== Sys2Proof/Machine/BitStream.lean ====
section
/-! DEFINITION. The bit stream of a payload, the chunk extractor and the pure functions `pack` and `unpack`
(40_packer.md R100 to R114). A bit stream is a list of bits, first bit first (00_scope.md R10). -/

namespace Sys2Proof.Machine

/-! ## Big-endian bytes of field elements -/

/-- `be_bytes_32(v)`: byte `k` is bits `[8*(31-k)+7 : 8*(31-k)]` (00_scope.md R11; 40_packer.md R105). -/
def beBytes32 (v : FieldElement) : List Byte :=
  (List.range 32).map fun k => v.extractLsb' (8 * (31 - k)) 8

/-- `from_be_32(B)`, the inverse of `be_bytes_32` (00_scope.md R11). -/
def fromBe32 (bs : List Byte) : FieldElement :=
  BitVec.ofNat 256 (bs.foldl (fun acc b => acc * 256 + b.toNat) 0)

/-! ## Streams -/

/-- The eight bits of a byte, most significant first (40_packer.md R100). -/
def bitsOfByte (b : Byte) : List Bool := (List.range 8).map fun k => b.getLsbD (7 - k)

/-- `bitstream(p)`: bit `8*i + k` is bit `7 - k` of byte `i` (40_packer.md R100). -/
def bitstream (p : List Byte) : List Bool := p.flatMap bitsOfByte

/-- `padded(p, w)`: the stream followed by zero bits up to whole windows (40_packer.md R102). -/
def padded (p : List Byte) (w : Nat) : List Bool :=
  bitstream p ++ List.replicate (chunkCount p.length w * w - 8 * p.length) false

/-- A list of bits read as a binary numeral, first bit most significant. -/
def natOfBits (bits : List Bool) : Nat := bits.foldl (fun acc b => 2 * acc + b.toNat) 0

/-- `extract(t, j, w)`, the variable-width chunk extractor: window `j` of width `w`, its first bit becoming bit `w-1`
of the value (40_packer.md R103). -/
def extract (t : List Bool) (j w : Nat) : Nat := natOfBits ((t.drop (j * w)).take w)

/-! ## pack -/

/-- `pack(p, w)`: chunk `j` is window `j` of the padded stream in the low-order `w` bits of a 256-bit value, the bits
above being zero (40_packer.md R104, R106). -/
def pack (p : List Byte) (w : Nat) : List FieldElement :=
  (List.range (chunkCount p.length w)).map fun j => BitVec.ofNat 256 (extract (padded p w) j w)

/-- One byte of the accumulator formulation: pending bits `acc < 2^n`, and a chunk when `w` bits are pending
(40_packer.md R112). -/
def packAccByte (w : Nat) : Nat × Nat × List FieldElement → Byte → Nat × Nat × List FieldElement
  | (acc, n, out), b =>
    let acc := acc * 256 + b.toNat
    let n := n + 8
    if n ≥ w then (acc % 2 ^ (n - w), n - w, out ++ [BitVec.ofNat 256 (acc / 2 ^ (n - w))])
    else (acc, n, out)

/-- The accumulator formulation of `pack` (40_packer.md R112, informative). No command uses it. -/
def packAcc (p : List Byte) (w : Nat) : List FieldElement :=
  match p.foldl (packAccByte w) (0, 0, []) with
  | (acc, n, out) => if n > 0 then out ++ [BitVec.ofNat 256 (acc * 2 ^ (w - n))] else out

/-! ## unpack -/

/-- The low-order `w` bits of a chunk, bit `w-1` first (40_packer.md R108). -/
def lowBits (w : Nat) (d : FieldElement) : List Bool := (List.range w).map fun k => d.getLsbD (w - 1 - k)

/-- A stream as bytes, eight bits each, first bit most significant. Bits left over at the end make no byte; `unpack` is
only used at a multiple of 8 bits (40_packer.md R108; N14; log 21). -/
def bytesOfBits : List Bool → List Byte
  | b7 :: b6 :: b5 :: b4 :: b3 :: b2 :: b1 :: b0 :: t =>
    BitVec.ofNat 8 (natOfBits [b7, b6, b5, b4, b3, b2, b1, b0]) :: bytesOfBits t
  | _ => []

/-- `unpack(chunks, w, bitlen)` (40_packer.md R108 to R110). -/
def unpack (chunks : List FieldElement) (w bitlen : Nat) : Except ErrCode (List Byte) :=
  if bitlen > chunks.length * w then .error .lengthMismatch
  else .ok (bytesOfBits ((chunks.flatMap (lowBits w)).take bitlen))

end Sys2Proof.Machine
end

