-- ==== Sys2Proof/Machine/Framing.lean ====
section
/-! DEFINITION. The framing functions `assemble` and `disassemble` and their composition with `pack` and `unpack`
(41_assembler.md R140 to R149). `n` is `N_ELEMENTS` throughout. -/

namespace Sys2Proof.Machine

/-- A blob: a list of `N_ELEMENTS` field elements (41_assembler.md R149). -/
abbrev Blob := List FieldElement

/-- `assemble(chunks)`: element `i` of blob `b` is chunk `n*b + i`, or the zero element past the last chunk
(41_assembler.md R140 to R142). -/
def assemble (n : Nat) (chunks : List FieldElement) : List Blob :=
  (List.range (blobCount n chunks.length)).map fun b =>
    (List.range n).map fun i => chunks.getD (n * b + i) 0#256

/-- `disassemble(blobs, usable_bits, total_chunk_count)`; the width is accepted and unused (41_assembler.md R143 to
R145). -/
def disassemble (n : Nat) (blobs : List Blob) (_w total : Nat) : Except ErrCode (List FieldElement) :=
  if total > n * blobs.length then .error .chunkCountMismatch
  else .ok (blobs.flatten.take total)

/-- A field-element sequence read as `k` blobs of `n` elements (20_memory.md R66). -/
def blobsOf (n k : Nat) (es : List FieldElement) : List Blob :=
  (List.range k).map fun b => (es.drop (n * b)).take n

/-- `encode(p, w) = assemble(pack(p, w))` (41_assembler.md R147). -/
def encodePayload (n : Nat) (p : List Byte) (w : Nat) : List Blob := assemble n (pack p w)

/-- `decode(blobs, w, L)` (41_assembler.md R147). -/
def decodeBlobs (n : Nat) (blobs : List Blob) (w len : Nat) : Except ErrCode (List Byte) :=
  match disassemble n blobs w (chunkCount len w) with
  | .ok chunks => unpack chunks w (8 * len)
  | .error e => .error e

/-- `blob_capacity_bytes(w)`; used by no command (41_assembler.md R146). -/
def blobCapacityBytes (n w : Nat) : Nat := n * w / 8

/-- The bytes of a result whose error case the caller has already ruled out (40_packer.md R121 and 41_assembler.md R153,
"cannot fail here"; log 15). -/
def okBytes : Except ErrCode (List Byte) → List Byte
  | .ok q => q
  | .error _ => []

end Sys2Proof.Machine
end

