-- ==== Sys2Proof/Decode.lean ====
section
/-! DEFINITION. Decoding and encoding of command words (30_encoding.md R80 to R90), and the assembler's mnemonics. -/

namespace Sys2Proof

/-- Why a command word is illegal (30_encoding.md R86). The machine completes it with E_ILLEGAL_CMD (60_exceptions.md
R184); all illegal words behave alike, the name only says what is wrong. -/
inductive DecodeError where
  /-- Bits [31:5] are not all zero. -/
  | reservedBitsSet (rsv : BitVec 27)
  /-- `OP` is 0x0 or in 0x7 to 0xF. -/
  | reservedOpcode (op : BitVec 4)
  deriving DecidableEq, Repr

/-- `OP`, bits [3:0] of a command word (30_encoding.md R81). -/
def wordOp (v : Word) : BitVec 4 := v.extractLsb' 0 4

/-- `MODE`, bit [4] of a command word (30_encoding.md R81). -/
def wordMode (v : Word) : BitVec 1 := v.extractLsb' 4 1

/-- `RSV`, bits [31:5] of a command word (30_encoding.md R81). -/
def wordRsv (v : Word) : BitVec 27 := v.extractLsb' 5 27

/-- Selects by MODE: 0 is tight, 1 is naive (30_encoding.md R83). -/
def byMode (mode : BitVec 1) (tight naive : Instr) : Instr :=
  if mode = 0#1 then tight else naive

/-- Decoding of the three fields, total (30_encoding.md R82, R86, R87). -/
def decodeFields (op : BitVec 4) (mode : BitVec 1) (rsv : BitVec 27) : Except DecodeError Instr :=
  if rsv = 0#27 then
    match op.toNat with
    | 1 => .ok (byMode mode .packT .packN)
    | 2 => .ok (byMode mode .unpackT .unpackN)
    | 3 => .ok (byMode mode .assembleT .assembleN)
    | 4 => .ok (byMode mode .disassembleT .disassembleN)
    | 5 => .ok (byMode mode .encodeT .encodeN)
    | 6 => .ok (byMode mode .decodeT .decodeN)
    | _ => .error (.reservedOpcode op)
  else .error (.reservedBitsSet rsv)

/-- Decoding of a command word: each word is decoded alone (30_encoding.md R87, R88). -/
def decode (v : Word) : Except DecodeError Instr :=
  decodeFields (wordOp v) (wordMode v) (wordRsv v)

/-- The instruction the decoder reads from the low `nbits` bits of `w`, every higher bit being zero. A command word is
one 32-bit word written whole to CMD (30_encoding.md R80), so no byte order enters. -/
def decodeTableWord (nbits w : Nat) : Option Instr :=
  match decode (BitVec.ofNat 32 (w % 2 ^ nbits)) with
  | .ok i => some i
  | .error _ => none

/-! ## Encoding -/

/-- The opcode of a command (30_encoding.md R82). -/
def opcode : Instr → BitVec 4
  | .packT | .packN => 0x1#4
  | .unpackT | .unpackN => 0x2#4
  | .assembleT | .assembleN => 0x3#4
  | .disassembleT | .disassembleN => 0x4#4
  | .encodeT | .encodeN => 0x5#4
  | .decodeT | .decodeN => 0x6#4

/-- The MODE bit of a command (30_encoding.md R83, R90). -/
def modeBit : Instr → BitVec 1
  | .packT | .unpackT | .assembleT | .disassembleT | .encodeT | .decodeT => 0#1
  | .packN | .unpackN | .assembleN | .disassembleN | .encodeN | .decodeN => 1#1

/-- A word of format C from its fields, RSV most significant (30_encoding.md R81). -/
def wordOfFields (op : BitVec 4) (mode : BitVec 1) (rsv : BitVec 27) : Word :=
  rsv ++ mode ++ op

/-- The command word of a command (30_encoding.md R81, R90). -/
def encode (i : Instr) : Word := wordOfFields (opcode i) (modeBit i) 0#27

/-! ## Mnemonics -/

/-- The command a mnemonic stands for; `assemble` and `disassemble` may omit the suffix, which means `.t`
(30_encoding.md R90). -/
def ofMnemonic (m : String) : Option Instr :=
  if m = "pack.t" then some .packT
  else if m = "pack.n" then some .packN
  else if m = "unpack.t" then some .unpackT
  else if m = "unpack.n" then some .unpackN
  else if m = "assemble.t" ∨ m = "assemble" then some .assembleT
  else if m = "assemble.n" then some .assembleN
  else if m = "disassemble.t" ∨ m = "disassemble" then some .disassembleT
  else if m = "disassemble.n" then some .disassembleN
  else if m = "encode.t" then some .encodeT
  else if m = "encode.n" then some .encodeN
  else if m = "decode.t" then some .decodeT
  else if m = "decode.n" then some .decodeN
  else none

end Sys2Proof
end

