-- ==== Sys2Proof/Machine/Ops.lean ====
section
/-! DEFINITION. The shared operations: BUF (20_memory.md), acceptance, completion with or without an error, the command
frame of 60_exceptions.md R188 to R191, and reset (70_reset_and_hazards.md R210, R211). -/

namespace Sys2Proof.Machine

/-! ## The buffer memory -/

/-- The bytes `bs` at `a`, `a+1`, ... as cells. -/
def cellsAt : Nat → List Byte → Memory
  | _, [] => []
  | a, b :: bs => (a, b) :: cellsAt (a + 1) bs

/-- Writes `bs` to `a .. a + |bs| - 1`, keeping the canonical form. -/
def Memory.write (m : Memory) (a : Nat) (bs : List Byte) : Memory :=
  m.filter (fun c => decide (c.1 < a)) ++ cellsAt a bs ++ m.filter (fun c => decide (a + bs.length ≤ c.1))

/-- `BUF[a]`: the byte written last, or the draw of the last reset where none has been (70_reset_and_hazards.md R211). -/
def State.byteAt (s : State) (a : Nat) : Byte := (s.buf.lookup a).getD (Config.freeByte s.bufDraw a)

/-- `MemRead(addr, n)` (00_scope.md R12). -/
def memRead (s : State) (a n : Nat) : List Byte := (List.range n).map fun k => s.byteAt (a + k)

/-- `MemRead` in one pass over a memory in canonical form, for running the model; `memRead` is the definition. -/
def readRun (draw : Nat → Byte) : Nat → Nat → Memory → List Byte
  | 0, _, _ => []
  | n + 1, a, m =>
    match m.dropWhile (fun c => decide (c.1 < a)) with
    | [] => draw a :: readRun draw n (a + 1) []
    | c :: rest =>
      (if c.1 = a then c.2 else draw a) :: readRun draw n (a + 1) (c :: rest)

/-- Whether a memory is in canonical form, in one pass. -/
def Memory.risesB : Memory → Bool
  | c :: d :: rest => decide (c.1 < d.1) && Memory.risesB (d :: rest)
  | _ => true

/-- `memRead` as it is run: one pass where the memory is in canonical form. -/
def memReadRun (s : State) (a n : Nat) : List Byte :=
  if s.buf.risesB then readRun (Config.freeByte s.bufDraw) n a s.buf
  else (List.range n).map fun k => s.byteAt (a + k)

theorem Memory.wf_of_risesB : ∀ m : Memory, m.risesB = true → m.wf
  | [], _ => List.Pairwise.nil
  | [c], _ => List.pairwise_singleton _ c
  | c :: d :: rest, h => by
    simp only [Memory.risesB, Bool.and_eq_true, decide_eq_true_eq] at h
    have ih := Memory.wf_of_risesB (d :: rest) h.2
    refine List.pairwise_cons.2 ⟨fun e he => ?_, ih⟩
    rcases List.mem_cons.1 he with rfl | he
    · exact h.1
    · exact h.1.trans ((List.pairwise_cons.1 ih).1 e he)

theorem Memory.lookup_cons (c : Host.Cell) (rest : Memory) (x : Nat) :
    List.lookup x (c :: rest) = if x = c.1 then some c.2 else List.lookup x rest := by
  obtain ⟨k, v⟩ := c
  by_cases h : x = k
  · simp [List.lookup, h]
  · have hx : (x == k) = false := by simpa using h
    simp only [List.lookup, hx, h, if_false]

theorem Memory.lookup_dropWhile (m : Memory) (a x : Nat) (h : a ≤ x) :
    List.lookup x (m.dropWhile fun c => decide (c.1 < a)) = List.lookup x m := by
  induction m with
  | nil => rfl
  | cons c rest ih =>
    by_cases hc : c.1 < a
    · have hx : x ≠ c.1 := by omega
      simp only [List.dropWhile_cons, hc, decide_true, if_true, ih, Memory.lookup_cons, hx, if_false]
    · simp [hc]

theorem Memory.lookup_eq_none_of_lt (m : Memory) (a : Nat) (h : ∀ c ∈ m, a < c.1) : List.lookup a m = none := by
  induction m with
  | nil => rfl
  | cons c rest ih =>
    have hx : a ≠ c.1 := by have := h c (by simp); omega
    rw [Memory.lookup_cons, if_neg hx, ih fun d hd => h d (by simp [hd])]

theorem readRun_eq_map (draw : Nat → Byte) (n : Nat) : ∀ (a : Nat) (m : Memory), m.wf →
    readRun draw n a m = (List.range n).map fun k => (List.lookup (a + k) m).getD (draw (a + k)) := by
  induction n with
  | zero => intros; rfl
  | succ n ih =>
    intro a m hm
    have hw : Memory.wf (m.dropWhile fun c => decide (c.1 < a)) := hm.sublist (List.dropWhile_sublist _)
    have hl := fun x => Memory.lookup_dropWhile m a x
    rw [List.range_succ_eq_map, List.map_cons, List.map_map, readRun]
    cases hd : m.dropWhile (fun c => decide (c.1 < a)) with
    | nil =>
      simp only [hd] at hl
      simp only [ih (a + 1) [] List.Pairwise.nil, Nat.add_zero, ← hl a le_rfl, List.lookup_nil, Option.getD_none]
      refine congrArg _ (List.map_congr_left fun k _ => ?_)
      simp only [Function.comp, ← hl (a + (k + 1)) (by omega), List.lookup_nil, Option.getD_none]
      rw [Nat.add_assoc, Nat.add_comm 1 k]
    | cons c rest =>
      rw [hd] at hw
      simp only [hd] at hl
      have hc : ¬ c.1 < a := by
        have := List.head?_dropWhile_not (fun c : Host.Cell => decide (c.1 < a)) m
        simpa [hd] using this
      simp only [ih (a + 1) (c :: rest) hw, Nat.add_zero, ← hl a le_rfl]
      refine congrArg₂ List.cons ?_ (List.map_congr_left fun k _ => ?_)
      · rw [Memory.lookup_cons]
        by_cases h : c.1 = a
        · simp [h]
        · rw [if_neg h, if_neg (Ne.symm h), Memory.lookup_eq_none_of_lt rest a fun d hd' => ?_]
          · rfl
          · have := (List.pairwise_cons.1 hw).1 d hd'
            omega
      · simp only [Function.comp]
        rw [← hl (a + (k + 1)) (by omega), Nat.add_assoc, Nat.add_comm 1 k]

/-- `memRead` may be run in one pass. -/
@[csimp] theorem memRead_eq_memReadRun : @memRead = @memReadRun := by
  funext s a n
  unfold memRead memReadRun State.byteAt
  split
  · next h => exact (readRun_eq_map _ n a s.buf (Memory.wf_of_risesB _ h)).symm
  · rfl

/-- `MemWrite(addr, n, B)` with `n = |B|` (00_scope.md R12). -/
def memWrite (a : Nat) (bs : List Byte) (s : State) : State := { s with buf := s.buf.write a bs }

/-- The sequence of `k` field elements stored at `a` (20_memory.md R65). -/
def loadElements (s : State) (a k : Nat) : List FieldElement :=
  (List.range k).map fun j => fromBe32 (memRead s (a + 32 * j) 32)

/-- The first `k` groups of 32 bytes as field elements. -/
def elementsOf : Nat → List Byte → List FieldElement
  | 0, _ => []
  | k + 1, bs => fromBe32 (bs.take 32) :: elementsOf k (bs.drop 32)

/-- `loadElements` as it is run: one read of the whole range. -/
def loadElementsRun (s : State) (a k : Nat) : List FieldElement := elementsOf k (memRead s a (32 * k))

theorem memRead_append (s : State) (a n k : Nat) : memRead s a (n + k) = memRead s a n ++ memRead s (a + n) k := by
  simp [memRead, List.range_add, Function.comp_def, Nat.add_assoc]

theorem elementsOf_memRead (s : State) (k : Nat) : ∀ a, elementsOf k (memRead s a (32 * k)) = loadElements s a k := by
  induction k with
  | zero => intro a; rfl
  | succ k ih =>
    intro a
    have hlen : (memRead s a 32).length = 32 := by simp [memRead]
    have h32 : 32 * (k + 1) = 32 + 32 * k := by omega
    rw [h32, memRead_append, elementsOf, List.take_left' hlen, List.drop_left' hlen, ih,
      loadElements, loadElements, List.range_succ_eq_map]
    simp [Function.comp_def, Nat.mul_succ, Nat.add_assoc, Nat.add_comm]

/-- `loadElements` may be run as one read. -/
@[csimp] theorem loadElements_eq_loadElementsRun : @loadElements = @loadElementsRun := by
  funext s a k
  exact (elementsOf_memRead s k a).symm

/-- The bytes of a sequence of field elements, 32 each and no gap (20_memory.md R65). -/
def elementBytes (es : List FieldElement) : List Byte := es.flatMap beBytes32

/-! ## Unspecified bytes -/

/-- One draw for every byte of a range that lies in BUF (log 8). -/
def drawRange (k bufBytes : Nat) (r : Range) : List Byte :=
  (List.range (min (r.base + r.size) bufBytes - r.base)).map fun j => Config.freeByte k (r.base + j)

/-- Where the host has written a byte of either range of the command, every byte of both is unspecified once the
command completes (70_reset_and_hazards.md R215; U2; log 8). -/
def settleHazard (src dst : Range) (s : State) : State :=
  if s.hazard then
    { memWrite dst.base (drawRange s.draws s.cfg.bufBytes dst)
        (memWrite src.base (drawRange s.draws s.cfg.bufBytes src) s) with draws := s.draws + 1 }
  else s

/-! ## The life cycle of a command -/

/-- The latch loaded from a command word and the operand registers (10_state.md R39; 60_exceptions.md R190). -/
def latchOf (v : Word) (s : State) : Latch where
  op := wordOp v
  mode := wordMode v
  rsv := wordRsv v
  src := s.src
  dst := s.dst
  len := s.len
  count := s.count
  nblobs := s.nblobs

/-- Acceptance of a command word, legal or not (60_exceptions.md R190). -/
def accept (v : Word) (s : State) : State :=
  { s with cmd := v, latch := some (latchOf v s), status := statusAccepted s.status, hazard := false }

/-- The completion procedure `Complete(e)`: the one way a command ends, with success or by `raise e`
(60_exceptions.md R189; 00_scope.md R12). It is all that "taking an exception" is here: nothing is saved, no vector is
taken and there is no return (R180, R195). -/
def complete (e : ErrCode) (s : State) : State :=
  { s with status := statusCompleted e s.status, latch := none, hazard := false }

/-- The frame of every command rule: read the operands from the latch, make the checks in order, perform `effect` only if none fails,
settle a broken buffer contract, complete (60_exceptions.md R188, R189, R191). An invalid latch is refused (U4). -/
def runCommand (c : Command) (m : Mode) (effect : Latch → State → State) (s : State) :
    Host.Outcome State Fault Refusal :=
  match s.latch with
  | none => .refused .latchInvalid
  | some l =>
    let e := commandError c m s.cfg l
    let t := if e = .none then effect l s else s
    .next (complete e (settleHazard (srcRange c s.cfg l) (dstRange c m s.cfg l) t))

/-- The instruction in a latch (60_exceptions.md R191). -/
def decodeLatch (l : Latch) : Except DecodeError Instr := decodeFields l.op l.mode l.rsv

/-- Whether an address lies in the source or the destination range of the running command, for R215; an illegal word has
no ranges (20_memory.md R63). -/
def inRunningRanges (s : State) (a : Nat) : Bool :=
  match s.latch with
  | none => false
  | some l =>
    match decodeLatch l with
    | .error _ => false
    | .ok i => (srcRange (commandOf i) s.cfg l).has a || (dstRange (commandOf i) (modeOf i) s.cfg l).has a

/-- Whether an address lies in the destination range of the running command, for R216. -/
def inRunningDst (s : State) (a : Nat) : Bool :=
  match s.latch with
  | none => false
  | some l =>
    match decodeLatch l with
    | .error _ => false
    | .ok i => (dstRange (commandOf i) (modeOf i) s.cfg l).has a

/-! ## Reset -/

/-- What reset does to the machine: every register at its reset value, the latch invalid, every byte of BUF a new draw
(10_state.md R42; 70_reset_and_hazards.md R210, R211). The configuration, the host and the scheduler are not BLOBPACK's
state and stay. -/
def resetMachine (s : State) : State :=
  { s with
    cmd := 0#32, status := 0#32, src := 0#32, dst := 0#32, len := 0#32, count := 0#32, nblobs := 0#32,
    outlen := 0#32, buf := [], latch := none, hazard := false, bufDraw := s.draws, draws := s.draws + 1 }

/-- The reset input is asserted (70_reset_and_hazards.md R210; log 7). -/
def assertReset (s : State) : State := { resetMachine s with resetLine := true }

/-- The reset input is released (70_reset_and_hazards.md R210; log 7). Releasing an input that is not asserted does
nothing. -/
def releaseReset (s : State) : State :=
  if s.resetLine then { resetMachine s with resetLine := false } else s

end Sys2Proof.Machine
end

