-- ==== Sys2Proof/Machine/Assembler.lean ====
section
/-! DEFINITION. The meanings of the BlobAssembler commands ASSEMBLE and DISASSEMBLE and of the composed commands ENCODE
and DECODE (41_assembler.md R150 to R153). -/

namespace Sys2Proof.Machine

/-- The effect of an ASSEMBLE that passed its checks: the chunks unchanged, then zero elements (41_assembler.md R150). -/
def assembleEffect (m : Mode) (l : Latch) (s : State) : State :=
  let nSrc := srcSize .assemble s.cfg l
  let nDst := dstSize .assemble m s.cfg l
  let b := memRead s l.src.toNat nSrc
  { memWrite (l.dst.toNat + nSrc) (List.replicate (nDst - nSrc) 0#8) (memWrite l.dst.toNat b s) with
    nblobs := BitVec.ofNat 32 (blobCount s.cfg.nElements l.count.toNat)
    outlen := BitVec.ofNat 32 nDst }

/-- The effect of a DISASSEMBLE that passed its checks: the first `L.count` elements (41_assembler.md R151). -/
def disassembleEffect (m : Mode) (l : Latch) (s : State) : State :=
  let nDst := dstSize .disassemble m s.cfg l
  let b := memRead s l.src.toNat (srcSize .disassemble s.cfg l)
  { memWrite l.dst.toNat (b.take nDst) s with outlen := BitVec.ofNat 32 nDst }

/-- The effect of an ENCODE that passed its checks (41_assembler.md R152). -/
def encodeEffect (m : Mode) (l : Latch) (s : State) : State :=
  let p := memRead s l.src.toNat l.len.toNat
  let count := chunkCount l.len.toNat (usableBits m)
  { memWrite l.dst.toNat (elementBytes (encodePayload s.cfg.nElements p (usableBits m)).flatten) s with
    count := BitVec.ofNat 32 count
    nblobs := BitVec.ofNat 32 (blobCount s.cfg.nElements count)
    outlen := BitVec.ofNat 32 (dstSize .encode m s.cfg l) }

/-- The effect of a DECODE that passed its checks (41_assembler.md R153). -/
def decodeEffect (m : Mode) (l : Latch) (s : State) : State :=
  let n := s.cfg.nElements
  let k := l.nblobs.toNat
  let blobs := blobsOf n k (loadElements s l.src.toNat (n * k))
  { memWrite l.dst.toNat (okBytes (decodeBlobs n blobs (usableBits m) l.len.toNat)) s with
    count := BitVec.ofNat 32 (chunkCount l.len.toNat (usableBits m))
    outlen := l.len }

/-- `assemble.t`, also written `assemble` (41_assembler.md R150). -/
def execAssembleT (s : State) : Host.Outcome State Fault Refusal :=
  runCommand .assemble .tight (assembleEffect .tight) s

/-- `assemble.n` (41_assembler.md R150). -/
def execAssembleN (s : State) : Host.Outcome State Fault Refusal :=
  runCommand .assemble .naive (assembleEffect .naive) s

/-- `disassemble.t`, also written `disassemble` (41_assembler.md R151). -/
def execDisassembleT (s : State) : Host.Outcome State Fault Refusal :=
  runCommand .disassemble .tight (disassembleEffect .tight) s

/-- `disassemble.n` (41_assembler.md R151). -/
def execDisassembleN (s : State) : Host.Outcome State Fault Refusal :=
  runCommand .disassemble .naive (disassembleEffect .naive) s

/-- `encode.t` (41_assembler.md R152). -/
def execEncodeT (s : State) : Host.Outcome State Fault Refusal :=
  runCommand .encode .tight (encodeEffect .tight) s

/-- `encode.n` (41_assembler.md R152). -/
def execEncodeN (s : State) : Host.Outcome State Fault Refusal :=
  runCommand .encode .naive (encodeEffect .naive) s

/-- `decode.t` (41_assembler.md R153). -/
def execDecodeT (s : State) : Host.Outcome State Fault Refusal :=
  runCommand .decode .tight (decodeEffect .tight) s

/-- `decode.n` (41_assembler.md R153). -/
def execDecodeN (s : State) : Host.Outcome State Fault Refusal :=
  runCommand .decode .naive (decodeEffect .naive) s

end Sys2Proof.Machine
end

