-- ==== Sys2Proof/Machine/Packer.lean ====
section
/-! DEFINITION. The meanings of the BitStreamPacker commands PACK and UNPACK (40_packer.md R120, R121). -/

namespace Sys2Proof.Machine

/-- The effect of a PACK that passed its checks (40_packer.md R120). -/
def packEffect (m : Mode) (l : Latch) (s : State) : State :=
  let p := memRead s l.src.toNat l.len.toNat
  { memWrite l.dst.toNat (elementBytes (pack p (usableBits m))) s with
    count := BitVec.ofNat 32 (chunkCount l.len.toNat (usableBits m))
    outlen := BitVec.ofNat 32 (dstSize .pack m s.cfg l) }

/-- The effect of an UNPACK that passed its checks (40_packer.md R121). -/
def unpackEffect (m : Mode) (l : Latch) (s : State) : State :=
  let d := loadElements s l.src.toNat l.count.toNat
  { memWrite l.dst.toNat (okBytes (unpack d (usableBits m) (8 * l.len.toNat))) s with
    outlen := l.len }

/-- `pack.t` (40_packer.md R120). -/
def execPackT (s : State) : Host.Outcome State Fault Refusal := runCommand .pack .tight (packEffect .tight) s

/-- `pack.n` (40_packer.md R120). -/
def execPackN (s : State) : Host.Outcome State Fault Refusal := runCommand .pack .naive (packEffect .naive) s

/-- `unpack.t` (40_packer.md R121). -/
def execUnpackT (s : State) : Host.Outcome State Fault Refusal := runCommand .unpack .tight (unpackEffect .tight) s

/-- `unpack.n` (40_packer.md R121). -/
def execUnpackN (s : State) : Host.Outcome State Fault Refusal := runCommand .unpack .naive (unpackEffect .naive) s

end Sys2Proof.Machine
end

