-- ==== Sys2Proof/Machine/Dispatch.lean ====
section
/-! DEFINITION. The meaning of each command, one arm per constructor (60_exceptions.md R191). -/

namespace Sys2Proof.Machine

def exec (i : Instr) (s : State) : Host.Outcome State Fault Refusal :=
  match i with
  | .packT => Sys2Proof.Machine.execPackT s
  | .packN => Sys2Proof.Machine.execPackN s
  | .unpackT => Sys2Proof.Machine.execUnpackT s
  | .unpackN => Sys2Proof.Machine.execUnpackN s
  | .assembleT => Sys2Proof.Machine.execAssembleT s
  | .assembleN => Sys2Proof.Machine.execAssembleN s
  | .disassembleT => Sys2Proof.Machine.execDisassembleT s
  | .disassembleN => Sys2Proof.Machine.execDisassembleN s
  | .encodeT => Sys2Proof.Machine.execEncodeT s
  | .encodeN => Sys2Proof.Machine.execEncodeN s
  | .decodeT => Sys2Proof.Machine.execDecodeT s
  | .decodeN => Sys2Proof.Machine.execDecodeN s

end Sys2Proof.Machine
end

