-- ==== Sys2Proof/Machine/Port.lean ====
section
/-! DEFINITION. The host's register port and buffer port (10_state.md R21, R36 to R38; 20_memory.md R62) and what one
action of the host's script does on them. -/

namespace Sys2Proof.Machine

/-! ## The register port -/

/-- A register-port read: the current value, with no side effect; NELEM and BUFSIZE read the parameters, the reserved
slots 10 to 15 read 0 (10_state.md R21, R34 to R37). -/
def readSlot (s : State) (slot : BitVec 4) : Word :=
  match slot.toNat with
  | 0 => s.cmd
  | 1 => s.status
  | 2 => s.src
  | 3 => s.dst
  | 4 => s.len
  | 5 => s.count
  | 6 => s.nblobs
  | 7 => s.outlen
  | 8 => BitVec.ofNat 32 s.cfg.nElements
  | 9 => BitVec.ofNat 32 s.cfg.bufBytes
  | _ => 0#32

/-- A register-port write while no command is in flight (10_state.md R37). -/
def writeSlotIdle (slot : BitVec 4) (v : Word) (s : State) : State :=
  match slot.toNat with
  | 0 => accept v s
  | 2 => { s with src := v }
  | 3 => { s with dst := v }
  | 4 => { s with len := v }
  | 5 => { s with count := v }
  | 6 => { s with nblobs := v }
  | _ => s

/-- A register-port write: dropped while a command is in flight, which sets WERR (60_exceptions.md R192); without effect
while reset is asserted, since every register holds its reset value (70_reset_and_hazards.md R210; log 7). -/
def writeSlot (slot : BitVec 4) (v : Word) (s : State) : State :=
  if s.resetLine then s
  else if s.busy then { s with status := statusDropped s.status }
  else writeSlotIdle slot v s

/-! ## The buffer port -/

/-- `HostWrite(a, v)`: sets `BUF[a]`, and nothing past the end of BUF (20_memory.md R62). A byte of either range of a
command in flight breaks the contract of 70_reset_and_hazards.md R215 (log 8). -/
def hostWriteByte (a : Nat) (v : Byte) (s : State) : State :=
  if a < s.cfg.bufBytes then
    { memWrite a [v] s with hazard := s.hazard || (s.busy && inRunningRanges s a) }
  else s

/-- What `HostRead(a)` returns: `BUF[a]`, 0 past the end of BUF (20_memory.md R62), and an unspecified value in the
destination range of a command in flight (70_reset_and_hazards.md R216; U3; log 9). -/
def hostReadValue (s : State) (a : Nat) : Byte :=
  if a < s.cfg.bufBytes then
    if s.busy && inRunningDst s a then Config.freeByte s.draws a else s.byteAt a
  else 0#8

/-- Whether a host read of `a` uses a draw (U3, "per read"). -/
def readDraws (s : State) (a : Nat) : Bool := decide (a < s.cfg.bufBytes) && (s.busy && inRunningDst s a)

/-! ## The host's script -/

/-- The host keeps what a register read returned. -/
def observeSlot (slot : BitVec 4) (s : State) : State :=
  { s with seen := .reg slot (readSlot s slot) :: s.seen }

/-- The host keeps what a byte read returned. -/
def observeByte (a : Nat) (s : State) : State :=
  { s with
    seen := .byte a (hostReadValue s a) :: s.seen
    draws := if readDraws s a then s.draws + 1 else s.draws }

/-- One action of the host, `rest` being the script after it (30_encoding.md R91, R92). A `wait` that reads BUSY stays
where it is, to read again; a failed `check` ends the script (log 13). -/
def hostAct (act : HostAction) (rest : List HostAction) (s : State) : State :=
  match act with
  | .writeReg slot v => { writeSlot slot v s with script := rest }
  | .readReg slot => { observeSlot slot s with script := rest }
  | .writeByte a v => { hostWriteByte a v s with script := rest }
  | .readByte a => { observeByte a s with script := rest }
  | .wait => if s.busy then observeSlot 1#4 s else { observeSlot 1#4 s with script := rest }
  | .check v =>
    if s.status = v then { observeSlot 1#4 s with script := rest }
    else { observeSlot 1#4 s with script := [], checkFailed := true }

/-- The host's move: the next action of its script, or nothing where the script is done. -/
def hostStep (s : State) : State :=
  match s.script with
  | [] => s
  | act :: rest => hostAct act rest s

end Sys2Proof.Machine
end

