-- ==== Sys2Proof/Machine/Script.lean ====
section
/-! DEFINITION. Host scripts: the statements and pseudo-instructions of the assembler syntax and the port accesses they
stand for (30_encoding.md R90 to R92). -/

namespace Sys2Proof.Machine

/-- The register names of the map (10_state.md R21). -/
inductive RegName where
  | cmd | status | src | dst | len | count | nblobs | outlen | nelem | bufsize
  deriving DecidableEq, Repr

/-- The word index of a register; its byte offset is four times it (10_state.md R21). -/
def slotOf : RegName → BitVec 4
  | .cmd => 0#4
  | .status => 1#4
  | .src => 2#4
  | .dst => 3#4
  | .len => 4#4
  | .count => 5#4
  | .nblobs => 6#4
  | .outlen => 7#4
  | .nelem => 8#4
  | .bufsize => 9#4

/-- One statement of a host script (30_encoding.md R91) or pseudo-instruction (R92). -/
inductive Statement where
  /-- `wr <REG>, <value>`. -/
  | wr (r : RegName) (v : Word)
  /-- `rd <REG>`. -/
  | rd (r : RegName)
  /-- `sb <addr>, <b0>, <b1>, ...`. -/
  | sb (addr : Nat) (bs : List Byte)
  /-- `lb <addr>, <n>`. -/
  | lb (addr n : Nat)
  /-- `<op>.<m>`. -/
  | op (i : Instr)
  /-- `cmd <value>`, any word. -/
  | cmd (v : Word)
  /-- `wait`. -/
  | wait
  /-- `run <op>.<m>`. -/
  | run (i : Instr)
  /-- `fill <addr>, <n>, <b>`. -/
  | fill (addr n : Nat) (b : Byte)
  /-- `check <v>`. -/
  | check (v : Word)
  deriving DecidableEq, Repr

/-- Byte writes at `a`, `a+1`, ... (30_encoding.md R91, `sb`). -/
def writeActions : Nat → List Byte → List HostAction
  | _, [] => []
  | a, b :: bs => .writeByte a b :: writeActions (a + 1) bs

/-- The port accesses a statement stands for (30_encoding.md R90 to R92). -/
def expandStatement : Statement → List HostAction
  | .wr r v => [.writeReg (slotOf r) v]
  | .rd r => [.readReg (slotOf r)]
  | .sb a bs => writeActions a bs
  | .lb a n => (List.range n).map fun k => .readByte (a + k)
  | .op i => [.writeReg (slotOf .cmd) (encode i)]
  | .cmd v => [.writeReg (slotOf .cmd) v]
  | .wait => [.wait]
  | .run i => [.writeReg (slotOf .cmd) (encode i), .wait]
  | .fill a n b => writeActions a (List.replicate n b)
  | .check v => [.check v]

/-- The port accesses of a whole script, one statement after the other. -/
def expandScript (p : List Statement) : List HostAction := p.flatMap expandStatement

end Sys2Proof.Machine
end

