-- ==== Sys2Proof/Machine/Engine.lean ====
section
/-! DEFINITION. The engine step and the choice of who moves next (60_exceptions.md R191; 70_reset_and_hazards.md R221). -/

namespace Sys2Proof.Machine

/-- The engine step: while BUSY, the command of the latch, or E_ILLEGAL_CMD for an illegal word; while idle, no step
(60_exceptions.md R191). While reset is asserted the engine has no step (70_reset_and_hazards.md R210). Having no step
leaves the state as it is (log 6). -/
def engineStep (s : State) : Host.Outcome State Fault Refusal :=
  if s.busy ∧ s.resetLine = false then
    match s.latch with
    | none => .refused .latchInvalid
    | some l =>
      match decodeLatch l with
      | .ok i => exec i s
      | .error _ => .next (complete .illegalCmd s)
  else .next s

/-- Whose turn it is: the scheduler's next choice; when no choice is left, a busy engine moves, so that every accepted
command completes (70_reset_and_hazards.md R221; logs 4 and 19), and otherwise the host. -/
def scheduledTurn (s : State) : Turn :=
  match s.turns with
  | t :: _ => t
  | [] => if s.busy then .engine else .host

/-- The state with the scheduled choice used up. -/
def useTurn (s : State) : State := { s with turns := s.turns.tail }

/-- The move of a turn. -/
def takeTurn (t : Turn) (s : State) : Host.Outcome State Fault Refusal :=
  match t with
  | .host => .next (hostStep s)
  | .engine => engineStep s
  | .resetAssert => .next (assertReset s)
  | .resetRelease => .next (releaseReset s)

/-- A command word accepted with the operand registers as they are, reset released and the engine moving next: what a
CMD write leaves behind when the engine is scheduled right after it (60_exceptions.md R190; log 12). -/
def loadCommand (v : Word) (s : State) : State :=
  { accept v s with resetLine := false, turns := .engine :: s.turns }

end Sys2Proof.Machine
end

