-- ==== Sys2Proof/Machine/Step.lean ====
section
/-! DEFINITION. One step of the machine, and how the host places an instruction where the next step runs it. -/

namespace Sys2Proof.Machine

/-- One step: the scheduled turn of the host, the engine or the reset input. A configuration that breaks 00_scope.md R7
is refused (log 2). -/
def step (s : State) : Host.Outcome State Fault Refusal :=
  if s.cfg.ok then takeTurn (scheduledTurn s) (useTurn s) else .refused .configOutOfRange

/-- The state in which the command word in the low `nbits` bits of `w` has been accepted and the engine moves next
(log 12). -/
def State.withFetchWord (s : State) (nbits w : Nat) : State :=
  loadCommand (BitVec.ofNat 32 (w % 2 ^ nbits)) s

end Sys2Proof.Machine
end

