-- ==== Sys2Proof/Safety.lean ====
section
/-! DEFINITION. What the statements speak of: the invariant of the machine, the contract of the host, and which state a
command's completion leaves. -/

namespace Sys2Proof.Machine

/-- The legal values of STATUS: reserved bits 0; `BUSY = 1` implies `DONE = 0` and `ERR = 0`; `DONE = 0` implies
`ERR = 0`; ERR one of 0 to 5 (10_state.md R23, R27; U10). -/
abbrev statusLegal (w : Word) : Prop :=
  w &&& 0xFFFFFF08#32 = 0#32 ∧ (statusBusy w = true → statusDone w = false ∧ statusErr w = 0#4) ∧
    (statusDone w = false → statusErr w = 0#4) ∧ (statusErr w).toNat ≤ 5

/-- Every register at the value of 10_state.md R42. -/
abbrev registersAtReset (s : State) : Prop :=
  s.cmd = 0#32 ∧ s.status = 0#32 ∧ s.src = 0#32 ∧ s.dst = 0#32 ∧ s.len = 0#32 ∧ s.count = 0#32 ∧
    s.nblobs = 0#32 ∧ s.outlen = 0#32

/-- The invariant of the machine. Every step keeps it and the reset state has it. -/
structure Inv (s : State) : Prop where
  /-- 00_scope.md R7. -/
  cfg_ok : s.cfg.ok
  /-- The memory keeps its canonical form. -/
  buf_wf : s.buf.wf
  /-- Only bytes that exist are stored (20_memory.md R61). -/
  buf_bound : ∀ c ∈ s.buf, c.1 < s.cfg.bufBytes
  /-- 10_state.md R23. -/
  status_legal : statusLegal s.status
  /-- The latch is valid exactly while BUSY, and then equals CMD and the operand registers (10_state.md R20, R39). -/
  latch_eq : s.latch = if s.busy then some (latchOf s.cmd s) else none
  /-- While reset is asserted every register holds its reset value (70_reset_and_hazards.md R210). -/
  reset_regs : s.resetLine = true → registersAtReset s
  /-- The buffer contract can only be broken while a command is in flight (70_reset_and_hazards.md R215). -/
  hazard_busy : s.hazard = true → s.busy = true
  /-- The draw of the unwritten bytes has been used (log 14). -/
  draws_fresh : s.bufDraw < s.draws

/-- The host has kept the contract of the command in flight or last completed: no write into a running command's ranges
(70_reset_and_hazards.md R215) and no register write while busy (R217). -/
abbrev hostObeys (s : State) : Prop := s.hazard = false ∧ statusWerr s.status = false

/-- STATUS goes from `w` to `w'` by a completion with the error code `e`: BUSY 0, DONE 1, ERR `e`, every other bit, WERR
among them, unchanged (60_exceptions.md R189). -/
abbrev completedWith (e : BitVec 4) (w w' : Word) : Prop :=
  statusBusy w' = false ∧ statusDone w' = true ∧ statusErr w' = e ∧
    ∀ k, k < 32 → (k = 2 ∨ k = 3 ∨ 8 ≤ k) → w'.getLsbD k = w.getLsbD k

/-- The next step is the host's action `act`, `rest` being the script after it. -/
abbrev hostMoves (s : State) (act : HostAction) (rest : List HostAction) : Prop :=
  s.cfg.ok ∧ scheduledTurn s = .host ∧ s.script = act :: rest

/-- The next step is the engine's, and the engine has one, for the latch `l`. -/
abbrev engineMoves (s : State) (l : Latch) : Prop :=
  s.cfg.ok ∧ scheduledTurn s = .engine ∧ s.busy = true ∧ s.resetLine = false ∧ s.latch = some l

/-- `k` steps, stopping at the first fault or refusal. -/
def runSteps : Nat → State → Host.Outcome State Fault Refusal
  | 0, s => .next s
  | k + 1, s =>
    match step s with
    | .next t => runSteps k t
    | .fault r => .fault r
    | .refused r => .refused r

end Sys2Proof.Machine
end

