-- ==== Sys2Proof/Certificates/Slice0/Obligations.lean ====
section
/-! DEFINITION. The statements for the provers. Each docstring names the rule of spec/ it formalises; "log <n>" is
notes/assumptions/<n>.md. Where a statement gives the next state as a record update of the old one, every field not named
is unchanged: that is its frame. -/

open Sys2Proof Sys2Proof.Machine

/-! ## Encoding -/

/-- 30_encoding.md R87: decoding is total; which words are legal and what each selects. -/
def Obligations.DecodingIsTotal : Prop :=
  (∀ v : Word,
    if v.extractLsb' 5 27 = 0#27 ∧ 1 ≤ (v.extractLsb' 0 4).toNat ∧ (v.extractLsb' 0 4).toNat ≤ 6 then
      ∃ i, decode v = .ok i ∧ usableBits (modeOf i) = (if v.getLsbD 4 then 248 else 254) ∧
        (v.extractLsb' 0 4 = 1#4 → commandOf i = .pack) ∧ (v.extractLsb' 0 4 = 2#4 → commandOf i = .unpack) ∧
        (v.extractLsb' 0 4 = 3#4 → commandOf i = .assemble) ∧ (v.extractLsb' 0 4 = 4#4 → commandOf i = .disassemble) ∧
        (v.extractLsb' 0 4 = 5#4 → commandOf i = .encode) ∧ (v.extractLsb' 0 4 = 6#4 → commandOf i = .decode)
    else ∃ e, decode v = .error e) ∧
  ∀ v : Word, (∃ i, decode v = .ok i) ↔
    v ∈ [0x00000001#32, 0x00000002#32, 0x00000003#32, 0x00000004#32, 0x00000005#32, 0x00000006#32,
      0x00000011#32, 0x00000012#32, 0x00000013#32, 0x00000014#32, 0x00000015#32, 0x00000016#32]

/-- 30_encoding.md R81, R90: a word decodes to a command exactly when it is that command's word, so no bit of a word is
dropped and decoding an encoded command gives it back. -/
def Obligations.DecodeIffEncode : Prop := ∀ (v : Word) (i : Instr), decode v = .ok i ↔ v = encode i

/-- 30_encoding.md R90: each of the twelve words decodes to the command its mnemonic names. -/
def Obligations.CommandWordsDecode : Prop :=
  decode 0x00000001#32 = .ok .packT ∧ decode 0x00000011#32 = .ok .packN ∧
  decode 0x00000002#32 = .ok .unpackT ∧ decode 0x00000012#32 = .ok .unpackN ∧
  decode 0x00000003#32 = .ok .assembleT ∧ decode 0x00000013#32 = .ok .assembleN ∧
  decode 0x00000004#32 = .ok .disassembleT ∧ decode 0x00000014#32 = .ok .disassembleN ∧
  decode 0x00000005#32 = .ok .encodeT ∧ decode 0x00000015#32 = .ok .encodeN ∧
  decode 0x00000006#32 = .ok .decodeT ∧ decode 0x00000016#32 = .ok .decodeN

/-- 30_encoding.md R90: the mnemonics, two of them with the suffix left out, and the words they write to CMD. -/
def Obligations.MnemonicsWriteTheirWords : Prop :=
  (∀ i, ofMnemonic i.mnemonic = some i ∧ expandStatement (.op i) = [.writeReg 0#4 (encode i)]) ∧
  ofMnemonic "assemble" = some .assembleT ∧ ofMnemonic "disassemble" = some .disassembleT ∧
  (["pack.t", "pack.n", "unpack.t", "unpack.n", "assemble.t", "assemble.n", "disassemble.t", "disassemble.n",
    "encode.t", "encode.n", "decode.t", "decode.n"].map fun m => (ofMnemonic m).map encode) =
    [0x00000001#32, 0x00000011#32, 0x00000002#32, 0x00000012#32, 0x00000003#32, 0x00000013#32,
      0x00000004#32, 0x00000014#32, 0x00000005#32, 0x00000015#32, 0x00000006#32, 0x00000016#32].map some

/-! ## The register port -/

/-- 60_exceptions.md R190: a CMD write while idle accepts the word, whatever it is, and loads the latch. (While reset is
asserted nothing is accepted, R210; that case is `ResetHoldsRegisters`.) -/
def Obligations.CmdWriteAccepts : Prop :=
  ∀ (s : State) (v : Word) (rest : List HostAction),
    hostMoves s (.writeReg 0#4 v) rest → s.busy = false → s.resetLine = false →
    ∃ w, step s = .next { s with
        cmd := v, status := w, hazard := false, script := rest, turns := s.turns.tail
        latch := some {
          op := v.extractLsb' 0 4, mode := v.extractLsb' 4 1, rsv := v.extractLsb' 5 27
          src := s.src, dst := s.dst, len := s.len, count := s.count, nblobs := s.nblobs } } ∧
      statusBusy w = true ∧ statusDone w = false ∧ statusWerr w = false ∧ statusErr w = 0#4 ∧
      ∀ k, k < 32 → (k = 3 ∨ 8 ≤ k) → w.getLsbD k = s.status.getLsbD k

/-- 10_state.md R37: register writes while idle, to every slot but CMD. -/
def Obligations.IdleRegisterWrites : Prop :=
  ∀ (s : State) (k : BitVec 4) (v : Word) (rest : List HostAction),
    hostMoves s (.writeReg k v) rest → s.busy = false → s.resetLine = false →
    (k = 2#4 → step s = .next { s with src := v, script := rest, turns := s.turns.tail }) ∧
    (k = 3#4 → step s = .next { s with dst := v, script := rest, turns := s.turns.tail }) ∧
    (k = 4#4 → step s = .next { s with len := v, script := rest, turns := s.turns.tail }) ∧
    (k = 5#4 → step s = .next { s with count := v, script := rest, turns := s.turns.tail }) ∧
    (k = 6#4 → step s = .next { s with nblobs := v, script := rest, turns := s.turns.tail }) ∧
    (k = 1#4 ∨ 7 ≤ k.toNat → step s = .next { s with script := rest, turns := s.turns.tail })

/-- 60_exceptions.md R192: a register write to any slot while busy is dropped and sets WERR. -/
def Obligations.BusyRegisterWritesDropped : Prop :=
  ∀ (s : State) (k : BitVec 4) (v : Word) (rest : List HostAction),
    hostMoves s (.writeReg k v) rest → s.busy = true → s.resetLine = false →
    ∃ w, step s = .next { s with status := w, script := rest, turns := s.turns.tail } ∧
      statusWerr w = true ∧ ∀ j, j < 32 → j ≠ 2 → w.getLsbD j = s.status.getLsbD j

/-- 10_state.md R36: reserved slots read 0 and ignore writes made while idle; a write while busy sets WERR and changes
nothing else. -/
def Obligations.ReservedSlots : Prop :=
  ∀ (s : State) (k : BitVec 4) (v : Word) (rest : List HostAction), 10 ≤ k.toNat →
    (hostMoves s (.readReg k) rest →
      step s = .next { s with seen := .reg k 0#32 :: s.seen, script := rest, turns := s.turns.tail }) ∧
    (hostMoves s (.writeReg k v) rest → s.busy = false →
      step s = .next { s with script := rest, turns := s.turns.tail }) ∧
    (hostMoves s (.writeReg k v) rest → s.busy = true → s.resetLine = false →
      ∃ w, step s = .next { s with status := w, script := rest, turns := s.turns.tail } ∧ statusWerr w = true ∧
        ∀ j, j < 32 → j ≠ 2 → w.getLsbD j = s.status.getLsbD j)

/-- 10_state.md R21, R34, R35, R37: a register read returns the register's value in any state, with no side effect. -/
def Obligations.RegisterReads : Prop :=
  ∀ (s : State) (k : BitVec 4) (rest : List HostAction), hostMoves s (.readReg k) rest →
    ∃ x : Word, step s = .next { s with seen := .reg k x :: s.seen, script := rest, turns := s.turns.tail } ∧
      (k = 0#4 → x = s.cmd) ∧ (k = 1#4 → x = s.status) ∧ (k = 2#4 → x = s.src) ∧ (k = 3#4 → x = s.dst) ∧
      (k = 4#4 → x = s.len) ∧ (k = 5#4 → x = s.count) ∧ (k = 6#4 → x = s.nblobs) ∧ (k = 7#4 → x = s.outlen) ∧
      (k = 8#4 → x.toNat = s.cfg.nElements) ∧ (k = 9#4 → x.toNat = s.cfg.bufBytes) ∧ (10 ≤ k.toNat → x = 0#32)

/-! ## The buffer port and the script -/

/-- 20_memory.md R62: a byte write, in any state, sets the byte if it exists and changes no other byte and no register.
That this also holds while reset is asserted is the model's choice (log 7). -/
def Obligations.HostByteWrites : Prop :=
  ∀ (s : State) (a : Nat) (v : Byte) (rest : List HostAction), hostMoves s (.writeByte a v) rest →
    ∃ t, step s = .next t ∧
      t = { s with buf := t.buf, hazard := t.hazard, script := rest, turns := s.turns.tail } ∧
      (a < s.cfg.bufBytes → t.byteAt a = v) ∧
      (∀ x, x ≠ a ∨ s.cfg.bufBytes ≤ a → t.byteAt x = s.byteAt x) ∧
      (s.cfg.bufBytes ≤ a → t = { s with script := rest, turns := s.turns.tail })

/-- 20_memory.md R62, 70_reset_and_hazards.md R216: a byte read, in any state. In the destination range of a command in
flight the value is any value (nothing is said of `v`), and a draw is used (log 9). That a read while reset is asserted
returns the byte like any other is the model's choice (log 7). -/
def Obligations.HostByteReads : Prop :=
  ∀ (s : State) (a : Nat) (rest : List HostAction), hostMoves s (.readByte a) rest →
    (s.cfg.bufBytes ≤ a →
      step s = .next { s with seen := .byte a 0#8 :: s.seen, script := rest, turns := s.turns.tail }) ∧
    (a < s.cfg.bufBytes → s.busy = false ∨ inRunningDst s a = false →
      step s = .next { s with seen := .byte a (s.byteAt a) :: s.seen, script := rest, turns := s.turns.tail }) ∧
    (a < s.cfg.bufBytes → s.busy = true → inRunningDst s a = true →
      ∃ v, step s = .next { s with
        seen := .byte a v :: s.seen, draws := s.draws + 1, script := rest, turns := s.turns.tail })

/-- 70_reset_and_hazards.md R215 (log 8): a byte write into either range of the command in flight is recorded, and a
write to any other byte is not. -/
def Obligations.ContractBreachRecorded : Prop :=
  ∀ (s : State) (l : Latch) (i : Instr) (a : Nat) (v : Byte) (rest : List HostAction),
    hostMoves s (.writeByte a v) rest → s.busy = true → s.latch = some l → decodeLatch l = .ok i →
    a < s.cfg.bufBytes →
    ∃ t, step s = .next t ∧
      ((l.src.toNat ≤ a ∧ a < l.src.toNat + srcSize (commandOf i) s.cfg l) ∨
        (l.dst.toNat ≤ a ∧ a < l.dst.toNat + dstSize (commandOf i) (modeOf i) s.cfg l) → t.hazard = true) ∧
      (¬ (l.src.toNat ≤ a ∧ a < l.src.toNat + srcSize (commandOf i) s.cfg l) →
        ¬ (l.dst.toNat ≤ a ∧ a < l.dst.toNat + dstSize (commandOf i) (modeOf i) s.cfg l) → t.hazard = s.hazard)

/-- 30_encoding.md R92: `wait` reads STATUS until BUSY is 0; `check` reads STATUS and goes on where it equals the value.
That a failed `check` ends the script is the model's choice (log 13). -/
def Obligations.WaitAndCheck : Prop :=
  ∀ (s : State) (v : Word) (rest : List HostAction),
    (hostMoves s .wait rest → s.busy = true →
      step s = .next { s with seen := .reg 1#4 s.status :: s.seen, turns := s.turns.tail }) ∧
    (hostMoves s .wait rest → s.busy = false →
      step s = .next { s with seen := .reg 1#4 s.status :: s.seen, script := rest, turns := s.turns.tail }) ∧
    (hostMoves s (.check v) rest → s.status = v →
      step s = .next { s with seen := .reg 1#4 s.status :: s.seen, script := rest, turns := s.turns.tail }) ∧
    (hostMoves s (.check v) rest → s.status ≠ v →
      step s = .next { s with
        seen := .reg 1#4 s.status :: s.seen, script := [], checkFailed := true, turns := s.turns.tail })

/-! ## The engine -/

/-- 60_exceptions.md R191: the engine step at a latch that decodes to `i` is `exec` of `i`; the step uses up the
scheduler's choice and does nothing else. -/
def Obligations.StepRunsDecodedCommand : Prop :=
  ∀ (s : State) (l : Latch) (i : Instr), engineMoves s l → decodeLatch l = .ok i →
    step s = exec i { s with turns := s.turns.tail }

/-- 60_exceptions.md R184: an accepted illegal word ends with E_ILLEGAL_CMD, before every other condition and whatever
the operands are, and has no other effect. -/
def Obligations.IllegalWordCompletes : Prop :=
  ∀ (s : State) (l : Latch), engineMoves s l → (l.rsv ≠ 0#27 ∨ l.op = 0#4 ∨ 7 ≤ l.op.toNat) →
    ∃ w, step s = .next { s with status := w, latch := none, hazard := false, turns := s.turns.tail } ∧
      completedWith 3#4 s.status w

/-- 60_exceptions.md R191, 70_reset_and_hazards.md R210: the engine has no step while idle or in reset. That a turn given
to it then changes nothing is the model's choice (log 6). -/
def Obligations.IdleEngineHasNoStep : Prop :=
  ∀ s : State, s.cfg.ok → scheduledTurn s = .engine → s.busy = false ∨ s.resetLine = true →
    step s = .next { s with turns := s.turns.tail }

/-- 00_scope.md R7: a configuration that breaks one of the three bounds is refused. That no other is, so that a MODULUS
that is not prime is not, is the model's reading (log 2). -/
def Obligations.ConfigurationRefused : Prop :=
  ∀ s : State,
    step s = .refused .configOutOfRange ↔
      (s.cfg.nElements < 1 ∨ 2 ^ 32 - 1 < s.cfg.nElements) ∨ (s.cfg.bufBytes < 1 ∨ 2 ^ 32 - 1 < s.cfg.bufBytes) ∨
        s.cfg.modulus ≤ 2 ^ 254

/-- 60_exceptions.md R189, R191: with a valid latch every command completes, with BUSY 0, DONE 1, WERR kept, and the
latch invalid; its other registers and fields, but for COUNT, NBLOBS, OUTLEN and BUF, are unchanged, and so are the
draws unless the host broke the buffer contract. -/
def Obligations.EveryCommandCompletes : Prop :=
  ∀ (i : Instr) (s : State) (l : Latch), s.latch = some l →
    ∃ t, exec i s = .next t ∧ completedWith (statusErr t.status) s.status t.status ∧
      t = { s with
        status := t.status, count := t.count, nblobs := t.nblobs, outlen := t.outlen, buf := t.buf, latch := none
        hazard := false, draws := t.draws } ∧
      (s.hazard = false → t.draws = s.draws)

/-- 60_exceptions.md R182 to R186, R188: which error a command ends with, exactly and in this order, an illegal word
first. `nSrc` and `nDst` are the sizes of 20_memory.md R63 (`RangesOfCommands`). All arithmetic is on natural numbers. -/
def Obligations.ErrorPriority : Prop :=
  ∀ (s : State) (l : Latch), engineMoves s l →
    ∃ t, step s = .next t ∧
      ((l.rsv ≠ 0#27 ∨ l.op = 0#4 ∨ 7 ≤ l.op.toNat) → statusErr t.status = 3#4) ∧
      ∀ (i : Instr) (w nSrc nDst : Nat), decodeLatch l = .ok i → w = usableBits (modeOf i) →
        nSrc = srcSize (commandOf i) s.cfg l → nDst = dstSize (commandOf i) (modeOf i) s.cfg l →
        statusErr t.status =
          if commandOf i = .unpack ∧ 8 * l.len.toNat > l.count.toNat * w then 1#4
          else if (commandOf i = .disassemble ∧ l.count.toNat > s.cfg.nElements * l.nblobs.toNat) ∨
              (commandOf i = .decode ∧ ceilDiv (8 * l.len.toNat) w > s.cfg.nElements * l.nblobs.toNat) then 2#4
          else if l.src.toNat + nSrc > s.cfg.bufBytes ∨ l.dst.toNat + nDst > s.cfg.bufBytes then 4#4
          else if 0 < nSrc ∧ 0 < nDst ∧ l.src.toNat < l.dst.toNat + nDst ∧ l.dst.toNat < l.src.toNat + nSrc then 5#4
          else 0#4

/-- 20_memory.md R63: the sizes of the ranges of every command. -/
def Obligations.RangesOfCommands : Prop :=
  ∀ (m : Mode) (c : Config) (l : Latch),
    (srcSize .pack c l = l.len.toNat ∧ dstSize .pack m c l = 32 * ceilDiv (8 * l.len.toNat) (usableBits m)) ∧
    (srcSize .unpack c l = 32 * l.count.toNat ∧ dstSize .unpack m c l = l.len.toNat) ∧
    (srcSize .assemble c l = 32 * l.count.toNat ∧
      dstSize .assemble m c l = 32 * c.nElements * max 1 (ceilDiv l.count.toNat c.nElements)) ∧
    (srcSize .disassemble c l = 32 * c.nElements * l.nblobs.toNat ∧ dstSize .disassemble m c l = 32 * l.count.toNat) ∧
    (srcSize .encode c l = l.len.toNat ∧ dstSize .encode m c l =
      32 * c.nElements * max 1 (ceilDiv (ceilDiv (8 * l.len.toNat) (usableBits m)) c.nElements)) ∧
    (srcSize .decode c l = 32 * c.nElements * l.nblobs.toNat ∧ dstSize .decode m c l = l.len.toNat)

/-- 60_exceptions.md R180: errors are precise. After the engine step of a failed command, illegal words included, the
state is the state before it but for STATUS and the latch. The host kept the contract of R215. -/
def Obligations.ErrorsArePrecise : Prop :=
  ∀ (s t : State) (l : Latch), engineMoves s l → s.hazard = false → step s = .next t → statusErr t.status ≠ 0#4 →
    t = { s with status := t.status, latch := none, turns := s.turns.tail } ∧
      completedWith (statusErr t.status) s.status t.status

/-- 20_memory.md R72: no byte outside the destination range is written, the source range among them, and none at all on
an error. The host kept the contract of R215. -/
def Obligations.CommandWritesOnlyDestination : Prop :=
  ∀ (i : Instr) (s t : State) (l : Latch), s.cfg.ok → s.latch = some l → s.hazard = false → exec i s = .next t →
    (∀ x, x < l.dst.toNat ∨ l.dst.toNat + dstSize (commandOf i) (modeOf i) s.cfg l ≤ x → t.byteAt x = s.byteAt x) ∧
    (∀ x, l.src.toNat ≤ x → x < l.src.toNat + srcSize (commandOf i) s.cfg l → t.byteAt x = s.byteAt x) ∧
    (statusErr t.status ≠ 0#4 → t.buf = s.buf)

/-! ## The commands -/

/-- 40_packer.md R120: a PACK whose ranges are in bounds and do not overlap. -/
def Obligations.PackCompletes : Prop :=
  ∀ (i : Instr) (w count : Nat) (s : State) (l : Latch), (i = .packT ∧ w = 254) ∨ (i = .packN ∧ w = 248) →
    count = ceilDiv (8 * l.len.toNat) w → s.cfg.ok → s.latch = some l → s.hazard = false →
    l.src.toNat + l.len.toNat ≤ s.cfg.bufBytes → l.dst.toNat + 32 * count ≤ s.cfg.bufBytes →
    ¬ (0 < l.len.toNat ∧ 0 < 32 * count ∧ l.src.toNat < l.dst.toNat + 32 * count ∧
      l.dst.toNat < l.src.toNat + l.len.toNat) →
    ∃ t, exec i s = .next t ∧
      t = { s with buf := t.buf, count := t.count, outlen := t.outlen, status := t.status, latch := none } ∧
      completedWith 0#4 s.status t.status ∧ t.count.toNat = count ∧ t.outlen.toNat = 32 * count ∧
      loadElements t l.dst.toNat count = pack (memRead s l.src.toNat l.len.toNat) w ∧
      ∀ x, x < l.dst.toNat ∨ l.dst.toNat + 32 * count ≤ x → t.byteAt x = s.byteAt x

/-- 40_packer.md R121: an UNPACK with enough bits whose ranges are in bounds and do not overlap. -/
def Obligations.UnpackCompletes : Prop :=
  ∀ (i : Instr) (w : Nat) (s : State) (l : Latch), (i = .unpackT ∧ w = 254) ∨ (i = .unpackN ∧ w = 248) →
    s.cfg.ok → s.latch = some l → s.hazard = false → 8 * l.len.toNat ≤ l.count.toNat * w →
    l.src.toNat + 32 * l.count.toNat ≤ s.cfg.bufBytes → l.dst.toNat + l.len.toNat ≤ s.cfg.bufBytes →
    ¬ (0 < 32 * l.count.toNat ∧ 0 < l.len.toNat ∧ l.src.toNat < l.dst.toNat + l.len.toNat ∧
      l.dst.toNat < l.src.toNat + 32 * l.count.toNat) →
    ∃ t, exec i s = .next t ∧
      t = { s with buf := t.buf, outlen := l.len, status := t.status, latch := none } ∧
      completedWith 0#4 s.status t.status ∧
      unpack (loadElements s l.src.toNat l.count.toNat) w (8 * l.len.toNat) =
        .ok (memRead t l.dst.toNat l.len.toNat) ∧
      ∀ x, x < l.dst.toNat ∨ l.dst.toNat + l.len.toNat ≤ x → t.byteAt x = s.byteAt x

/-- 41_assembler.md R150: an ASSEMBLE whose ranges are in bounds and do not overlap. -/
def Obligations.AssembleCompletes : Prop :=
  ∀ (i : Instr) (n nb : Nat) (s : State) (l : Latch), i = .assembleT ∨ i = .assembleN →
    n = s.cfg.nElements → nb = max 1 (ceilDiv l.count.toNat n) → s.cfg.ok → s.latch = some l → s.hazard = false →
    l.src.toNat + 32 * l.count.toNat ≤ s.cfg.bufBytes → l.dst.toNat + 32 * n * nb ≤ s.cfg.bufBytes →
    ¬ (0 < 32 * l.count.toNat ∧ 0 < 32 * n * nb ∧ l.src.toNat < l.dst.toNat + 32 * n * nb ∧
      l.dst.toNat < l.src.toNat + 32 * l.count.toNat) →
    ∃ t, exec i s = .next t ∧
      t = { s with buf := t.buf, nblobs := t.nblobs, outlen := t.outlen, status := t.status, latch := none } ∧
      completedWith 0#4 s.status t.status ∧ t.nblobs.toNat = nb ∧ t.outlen.toNat = 32 * n * nb ∧
      loadElements t l.dst.toNat (n * nb) = (assemble n (loadElements s l.src.toNat l.count.toNat)).flatten ∧
      ∀ x, x < l.dst.toNat ∨ l.dst.toNat + 32 * n * nb ≤ x → t.byteAt x = s.byteAt x

/-- 41_assembler.md R151: a DISASSEMBLE with enough elements whose ranges are in bounds and do not overlap. -/
def Obligations.DisassembleCompletes : Prop :=
  ∀ (i : Instr) (n k : Nat) (s : State) (l : Latch), i = .disassembleT ∨ i = .disassembleN →
    n = s.cfg.nElements → k = l.nblobs.toNat → s.cfg.ok → s.latch = some l → s.hazard = false →
    l.count.toNat ≤ n * k →
    l.src.toNat + 32 * n * k ≤ s.cfg.bufBytes → l.dst.toNat + 32 * l.count.toNat ≤ s.cfg.bufBytes →
    ¬ (0 < 32 * n * k ∧ 0 < 32 * l.count.toNat ∧ l.src.toNat < l.dst.toNat + 32 * l.count.toNat ∧
      l.dst.toNat < l.src.toNat + 32 * n * k) →
    ∃ t, exec i s = .next t ∧
      t = { s with buf := t.buf, outlen := t.outlen, status := t.status, latch := none } ∧
      completedWith 0#4 s.status t.status ∧ t.outlen.toNat = 32 * l.count.toNat ∧
      (∀ w, disassemble n (blobsOf n k (loadElements s l.src.toNat (n * k))) w l.count.toNat =
        .ok (loadElements t l.dst.toNat l.count.toNat)) ∧
      ∀ x, x < l.dst.toNat ∨ l.dst.toNat + 32 * l.count.toNat ≤ x → t.byteAt x = s.byteAt x

/-- 41_assembler.md R152: an ENCODE whose ranges are in bounds and do not overlap. -/
def Obligations.EncodeCompletes : Prop :=
  ∀ (i : Instr) (w n count nb : Nat) (s : State) (l : Latch), (i = .encodeT ∧ w = 254) ∨ (i = .encodeN ∧ w = 248) →
    n = s.cfg.nElements → count = ceilDiv (8 * l.len.toNat) w → nb = max 1 (ceilDiv count n) →
    s.cfg.ok → s.latch = some l → s.hazard = false →
    l.src.toNat + l.len.toNat ≤ s.cfg.bufBytes → l.dst.toNat + 32 * n * nb ≤ s.cfg.bufBytes →
    ¬ (0 < l.len.toNat ∧ 0 < 32 * n * nb ∧ l.src.toNat < l.dst.toNat + 32 * n * nb ∧
      l.dst.toNat < l.src.toNat + l.len.toNat) →
    ∃ t, exec i s = .next t ∧
      t = { s with
        buf := t.buf, count := t.count, nblobs := t.nblobs, outlen := t.outlen, status := t.status, latch := none } ∧
      completedWith 0#4 s.status t.status ∧ t.count.toNat = count ∧ t.nblobs.toNat = nb ∧
      t.outlen.toNat = 32 * n * nb ∧
      loadElements t l.dst.toNat (n * nb) = (assemble n (pack (memRead s l.src.toNat l.len.toNat) w)).flatten ∧
      ∀ x, x < l.dst.toNat ∨ l.dst.toNat + 32 * n * nb ≤ x → t.byteAt x = s.byteAt x

/-- 41_assembler.md R153: a DECODE with enough elements whose ranges are in bounds and do not overlap. -/
def Obligations.DecodeCompletes : Prop :=
  ∀ (i : Instr) (w n k count : Nat) (s : State) (l : Latch), (i = .decodeT ∧ w = 254) ∨ (i = .decodeN ∧ w = 248) →
    n = s.cfg.nElements → k = l.nblobs.toNat → count = ceilDiv (8 * l.len.toNat) w →
    s.cfg.ok → s.latch = some l → s.hazard = false → count ≤ n * k →
    l.src.toNat + 32 * n * k ≤ s.cfg.bufBytes → l.dst.toNat + l.len.toNat ≤ s.cfg.bufBytes →
    ¬ (0 < 32 * n * k ∧ 0 < l.len.toNat ∧ l.src.toNat < l.dst.toNat + l.len.toNat ∧
      l.dst.toNat < l.src.toNat + 32 * n * k) →
    ∃ t, exec i s = .next t ∧
      t = { s with buf := t.buf, count := t.count, outlen := l.len, status := t.status, latch := none } ∧
      completedWith 0#4 s.status t.status ∧ t.count.toNat = count ∧
      (∃ chunks, disassemble n (blobsOf n k (loadElements s l.src.toNat (n * k))) w count = .ok chunks ∧
        unpack chunks w (8 * l.len.toNat) = .ok (memRead t l.dst.toNat l.len.toNat)) ∧
      ∀ x, x < l.dst.toNat ∨ l.dst.toNat + l.len.toNat ≤ x → t.byteAt x = s.byteAt x

/-- 10_state.md R39, 60_exceptions.md R189, U4: no command reads an invalid latch; the model refuses (log 10). -/
def Obligations.InvalidLatchRefused : Prop :=
  ∀ (i : Instr) (s : State), s.latch = none → exec i s = .refused .latchInvalid

/-- 41_assembler.md R145: ASSEMBLE and DISASSEMBLE give the same result in both modes, and `disassemble` does not depend
on the width. -/
def Obligations.FramingIgnoresMode : Prop :=
  (∀ s, exec .assembleT s = exec .assembleN s) ∧ (∀ s, exec .disassembleT s = exec .disassembleN s) ∧
    ∀ n blobs w w' t, disassemble n blobs w t = disassemble n blobs w' t

/-! ## Hazards and what a command does not depend on -/

/-- 70_reset_and_hazards.md R215 (U2, log 8): after a broken buffer contract the registers are as the command rule says,
the bytes outside both ranges are unchanged, and nothing is said of the bytes inside. -/
def Obligations.BrokenContractSparesRegisters : Prop :=
  ∀ (i : Instr) (s : State) (l : Latch), s.latch = some l → s.hazard = true → s.cfg.ok →
    ∃ t t', exec i s = .next t ∧ exec i { s with hazard := false } = .next t' ∧
      t = { t' with buf := t.buf, draws := s.draws + 1 } ∧
      ∀ x, ¬ (l.src.toNat ≤ x ∧ x < l.src.toNat + srcSize (commandOf i) s.cfg l) →
        ¬ (l.dst.toNat ≤ x ∧ x < l.dst.toNat + dstSize (commandOf i) (modeOf i) s.cfg l) → t.byteAt x = s.byteAt x

/-- 70_reset_and_hazards.md R215: no check and no register result depends on the contents of BUF. -/
def Obligations.RegistersIgnoreBuf : Prop :=
  ∀ (i : Instr) (s t : State) (m : Memory) (d : Nat), exec i s = .next t →
    ∃ t', exec i { s with buf := m, bufDraw := d } = .next t' ∧ t' = { t with buf := t'.buf, bufDraw := d }

/-- 70_reset_and_hazards.md R215: host writes to bytes outside both ranges during a command are harmless: writing before
or after the engine step leaves the same registers and the same bytes. -/
def Obligations.HarmlessHostWritesCommute : Prop :=
  ∀ (i : Instr) (s t : State) (l : Latch) (a : Nat) (v : Byte), s.cfg.ok → s.latch = some l →
    ¬ (l.src.toNat ≤ a ∧ a < l.src.toNat + srcSize (commandOf i) s.cfg l) →
    ¬ (l.dst.toNat ≤ a ∧ a < l.dst.toNat + dstSize (commandOf i) (modeOf i) s.cfg l) →
    exec i s = .next t →
    ∃ t', exec i (memWrite a [v] s) = .next t' ∧ t' = { t with buf := t'.buf } ∧
      ∀ x, t'.byteAt x = (memWrite a [v] t).byteAt x

/-- 10_state.md R26: WERR never affects a command's result. -/
def Obligations.WerrNeverAffectsResult : Prop :=
  ∀ (i : Instr) (s t : State), exec i s = .next t →
    exec i { s with status := statusDropped s.status } = .next { t with status := statusDropped t.status }

/-- 40_packer.md R107: every chunk `pack` produces is below `2^w` and so below MODULUS, with the top byte bounded; and no
command reads MODULUS. -/
def Obligations.ChunksBelowModulus : Prop :=
  (∀ (p : List Byte) (m : Mode) (c : Config), c.ok → ∀ v ∈ pack p (usableBits m),
    v.toNat < 2 ^ usableBits m ∧ 2 ^ usableBits m ≤ 2 ^ 254 ∧ 2 ^ 254 < c.modulus) ∧
  (∀ p, ∀ v ∈ pack p 254, ((beBytes32 v).getD 0 0#8).toNat ≤ 0x3F) ∧
  (∀ p, ∀ v ∈ pack p 248, (beBytes32 v).getD 0 0#8 = 0x00#8) ∧
  ∀ (i : Instr) (s t : State) (q : Nat), exec i s = .next t →
    exec i { s with cfg := { s.cfg with modulus := q } } = .next { t with cfg := { t.cfg with modulus := q } }

/-! ## The pure functions -/

/-- 00_scope.md R11: `ceil_div` is the least quotient, and the byte forms of a field element are inverse. -/
def Obligations.HelperFunctions : Prop :=
  (∀ a b q, 1 ≤ b → (ceilDiv a b ≤ q ↔ a ≤ q * b)) ∧
  (∀ v k, k < 32 → (beBytes32 v)[k]? = some (v.extractLsb' (8 * (31 - k)) 8)) ∧
  (∀ v, (beBytes32 v).length = 32 ∧ fromBe32 (beBytes32 v) = v) ∧
  ∀ bs : List Byte, bs.length = 32 → beBytes32 (fromBe32 bs) = bs

/-- 40_packer.md R100 to R106: `pack` makes `ceil(8L / w)` chunks; bit `w-1-k` of chunk `j` is bit `j*w + k` of the
payload's stream, most significant bit of byte 0 first, or a zero bit past its end; bits [255:w] are zero. -/
def Obligations.PackBits : Prop :=
  ∀ (p : List Byte) (w : Nat), w = 254 ∨ w = 248 →
    (pack p w).length = ceilDiv (8 * p.length) w ∧
    ∀ (j : Nat) (c : FieldElement), (pack p w)[j]? = some c →
      (∀ k, k < w → c.getLsbD (w - 1 - k) =
        if j * w + k < 8 * p.length then (p.getD ((j * w + k) / 8) 0#8).getLsbD (7 - (j * w + k) % 8) else false) ∧
      ∀ b, w ≤ b → c.getLsbD b = false

/-- 40_packer.md R108: `unpack` fails exactly where the bits do not suffice; otherwise bit `7-k` of byte `i` is bit
`8*i + k` of the chunks' low-order `w` bits, first chunk first and each most significant bit first. -/
def Obligations.UnpackBits : Prop :=
  ∀ (cs : List FieldElement) (w len : Nat), w = 254 ∨ w = 248 →
    (∀ bitlen, bitlen > cs.length * w → unpack cs w bitlen = .error .lengthMismatch) ∧
    (8 * len ≤ cs.length * w → ∃ q, unpack cs w (8 * len) = .ok q ∧ q.length = len ∧
      ∀ i k, i < len → k < 8 →
        (q.getD i 0#8).getLsbD (7 - k) = (cs.getD ((8 * i + k) / w) 0#256).getLsbD (w - 1 - (8 * i + k) % w))

/-- 40_packer.md R109: `unpack` reads only bits [w-1:0] of each value. -/
def Obligations.UnpackIgnoresHighBits : Prop :=
  ∀ (cs ds : List FieldElement) (w bitlen : Nat), w = 254 ∨ w = 248 → cs.length = ds.length →
    (∀ j b, b < w → (cs.getD j 0#256).getLsbD b = (ds.getD j 0#256).getLsbD b) →
    unpack cs w bitlen = unpack ds w bitlen

/-- 40_packer.md R110: `unpack` uses the first `bitlen` bits of the stream and nothing else; more chunks than the length
needs are not an error. -/
def Obligations.UnpackUsesPrefix : Prop :=
  ∀ (cs ds : List FieldElement) (w len : Nat), w = 254 ∨ w = 248 →
    8 * len ≤ cs.length * w → 8 * len ≤ ds.length * w →
    (∀ n, n < 8 * len →
      (cs.getD (n / w) 0#256).getLsbD (w - 1 - n % w) = (ds.getD (n / w) 0#256).getLsbD (w - 1 - n % w)) →
    ∃ q, unpack cs w (8 * len) = .ok q ∧ unpack ds w (8 * len) = .ok q

/-- 40_packer.md R111: naive mode is byte-aligned, in both directions. -/
def Obligations.NaiveIsByteAligned : Prop :=
  (∀ (p : List Byte) (j : Nat) (c : FieldElement), (pack p 248)[j]? = some c →
    beBytes32 c = 0x00#8 :: (List.range 31).map fun k => p.getD (31 * j + k) 0x00#8) ∧
  ∀ (cs : List FieldElement) (len : Nat) (q : List Byte), unpack cs 248 (8 * len) = .ok q →
    q = (List.range len).map fun i => (beBytes32 (cs.getD (i / 31) 0#256)).getD (1 + i % 31) 0#8

/-- 40_packer.md R112: the accumulator formulation computes `pack`. -/
def Obligations.AccumulatorComputesPack : Prop :=
  ∀ (p : List Byte) (w : Nat), w = 254 ∨ w = 248 → packAcc p w = pack p w

/-- 40_packer.md R113: the round-trip law. -/
def Obligations.PackUnpackRoundTrip : Prop :=
  ∀ (p : List Byte) (w : Nat), w = 254 ∨ w = 248 →
    (pack p w).length = chunkCount p.length w ∧ unpack (pack p w) w (8 * p.length) = .ok p

/-- 40_packer.md R114: the density law, with the lengths the rule names. -/
def Obligations.DensityLaw : Prop :=
  (∀ len, chunkCount len 254 ≤ chunkCount len 248) ∧
  (∀ len, len < 63 → chunkCount len 254 = chunkCount len 248) ∧
  (chunkCount 63 254 = 2 ∧ chunkCount 63 248 = 3) ∧ chunkCount 94 254 < chunkCount 94 248 ∧
  chunkCount 124 254 = chunkCount 124 248 ∧ (chunkCount 1302 254 = 42 ∧ chunkCount 1302 248 = 42) ∧
  ∀ len, 1303 ≤ len → chunkCount len 254 < chunkCount len 248

/-- 41_assembler.md R140, R142, R149: the blobs of `assemble`: how many, each of exactly `n` elements, and which chunk
each element is. -/
def Obligations.AssembleFrames : Prop :=
  ∀ (n : Nat) (cs : List FieldElement), 1 ≤ n →
    (assemble n cs).length = max 1 (ceilDiv cs.length n) ∧
    (∀ b ∈ assemble n cs, b.length = n) ∧
    (∀ (b i : Nat) (blob : Blob), (assemble n cs)[b]? = some blob → i < n →
      blob[i]? = some (if h : n * b + i < cs.length then cs[n * b + i] else 0#256)) ∧
    (cs = [] → (assemble n cs).length = 1) ∧ (cs.length = n → (assemble n cs).length = 1) ∧
    (cs.length = n + 1 → (assemble n cs).length = 2)

/-- 41_assembler.md R143: `disassemble` fails exactly where the count exceeds what the blobs hold; otherwise it gives the
first elements in blob order then in-blob order. -/
def Obligations.DisassembleTakesFirst : Prop :=
  ∀ (n : Nat) (blobs : List Blob) (w t : Nat), 1 ≤ n → (∀ b ∈ blobs, b.length = n) →
    (t > n * blobs.length → disassemble n blobs w t = .error .chunkCountMismatch) ∧
    (t ≤ n * blobs.length → ∃ es, disassemble n blobs w t = .ok es ∧ es.length = t ∧
      ∀ e, e < t → es[e]? = blobs[e / n]?.bind fun b => b[e % n]?)

/-- 41_assembler.md R147: in `decode` the only error is `ChunkCountMismatch`, exactly where the blobs hold too few
elements. -/
def Obligations.DecodeNeverLengthMismatch : Prop :=
  ∀ (n : Nat) (blobs : List Blob) (w len : Nat), 1 ≤ n → w = 254 ∨ w = 248 → (∀ b ∈ blobs, b.length = n) →
    (chunkCount len w > n * blobs.length → decodeBlobs n blobs w len = .error .chunkCountMismatch) ∧
    (chunkCount len w ≤ n * blobs.length → ∃ q, decodeBlobs n blobs w len = .ok q ∧ q.length = len)

/-- 41_assembler.md R148: the composed round-trip law, for every length and every blob size. -/
def Obligations.EncodeDecodeRoundTrip : Prop :=
  ∀ (n : Nat) (p : List Byte) (w : Nat), 1 ≤ n → w = 254 ∨ w = 248 →
    decodeBlobs n (encodePayload n p w) w p.length = .ok p

/-- 41_assembler.md R146: a payload of the capacity fills exactly one blob, and the capacities at 4096 elements. -/
def Obligations.CapacityFillsOneBlob : Prop :=
  blobCapacityBytes 4096 254 = 130048 ∧ blobCapacityBytes 4096 248 = 126976 ∧
  ∀ (n w : Nat), 1 ≤ n → w = 254 ∨ w = 248 → n * w % 8 = 0 →
    chunkCount (blobCapacityBytes n w) w = n ∧ blobCount n (chunkCount (blobCapacityBytes n w) w) = 1

/-! ## Several commands -/

/-- 41_assembler.md R152: the result of ENCODE equals PACK into a scratch area followed by ASSEMBLE of it. -/
def Obligations.EncodeIsPackThenAssemble : Prop :=
  ∀ (enc pk asm : Instr) (s t0 t1 t2 : State) (l : Latch) (x : Word),
    (enc = .encodeT ∧ pk = .packT) ∨ (enc = .encodeN ∧ pk = .packN) → asm = .assembleT ∨ asm = .assembleN →
    s.cfg.ok → s.latch = some l → s.hazard = false →
    exec enc s = .next t0 → statusErr t0.status = 0#4 →
    exec pk { s with latch := some { l with dst := x } } = .next t1 → statusErr t1.status = 0#4 →
    exec asm { t1 with latch := some { l with src := x, count := t1.count } } = .next t2 →
    statusErr t2.status = 0#4 →
    t2.count = t0.count ∧ t2.nblobs = t0.nblobs ∧ t2.outlen = t0.outlen ∧
      memRead t2 l.dst.toNat t0.outlen.toNat = memRead t0 l.dst.toNat t0.outlen.toNat

/-- 40_packer.md R113 on the machine: PACK, then UNPACK of its output with the same LEN and mode and the COUNT it left,
gives the payload back. -/
def Obligations.PackThenUnpackRestores : Prop :=
  ∀ (pk un : Instr) (s t1 t2 : State) (l : Latch) (out : Word),
    (pk = .packT ∧ un = .unpackT) ∨ (pk = .packN ∧ un = .unpackN) →
    s.cfg.ok → s.latch = some l → s.hazard = false → exec pk s = .next t1 → statusErr t1.status = 0#4 →
    exec un { t1 with latch := some { l with src := l.dst, dst := out, count := t1.count } } = .next t2 →
    statusErr t2.status = 0#4 →
    memRead t2 out.toNat l.len.toNat = memRead s l.src.toNat l.len.toNat

/-- 41_assembler.md R148 on the machine: ENCODE, then DECODE of its output with the same LEN and mode and the NBLOBS it
left, gives the payload back. -/
def Obligations.EncodeThenDecodeRestores : Prop :=
  ∀ (enc dec : Instr) (s t1 t2 : State) (l : Latch) (out : Word),
    (enc = .encodeT ∧ dec = .decodeT) ∨ (enc = .encodeN ∧ dec = .decodeN) →
    s.cfg.ok → s.latch = some l → s.hazard = false → exec enc s = .next t1 → statusErr t1.status = 0#4 →
    exec dec { t1 with latch := some { l with src := l.dst, dst := out, nblobs := t1.nblobs } } = .next t2 →
    statusErr t2.status = 0#4 →
    memRead t2 out.toNat l.len.toNat = memRead s l.src.toNat l.len.toNat

/-! ## Reset, invariant, progress -/

/-- 10_state.md R42: every register right after reset, as the host reads it, and the latch; of the bytes of BUF only that
they are the reset's draw, about which nothing is known. -/
def Obligations.ResetValues : Prop :=
  ∀ c : Config, c.ok →
    (∀ k : BitVec 4, k.toNat ≠ 8 → k.toNat ≠ 9 → readSlot (State.resetWith c) k = 0#32) ∧
    (readSlot (State.resetWith c) 8#4).toNat = c.nElements ∧ (readSlot (State.resetWith c) 9#4).toNat = c.bufBytes ∧
    (State.resetWith c).latch = none ∧
    (∀ a, (State.resetWith c).byteAt a = Config.freeByte (State.resetWith c).bufDraw a)

/-- 70_reset_and_hazards.md R210, R211: asserting reset, in any state, sets every register to its reset value and makes
the latch invalid, so a command in flight is abandoned; BUF becomes a new draw (logs 3 and 7). -/
def Obligations.ResetAbandonsCommand : Prop :=
  ∀ s : State, s.cfg.ok → scheduledTurn s = .resetAssert →
    step s = .next { s with
      cmd := 0#32, status := 0#32, src := 0#32, dst := 0#32, len := 0#32, count := 0#32, nblobs := 0#32
      outlen := 0#32, latch := none, hazard := false, buf := [], bufDraw := s.draws, draws := s.draws + 1
      resetLine := true, turns := s.turns.tail }

/-- 70_reset_and_hazards.md R210: while reset is asserted, and when it is released, every register holds its reset value,
the latch is invalid and nothing completes, whoever moves. How the host's writes fare meanwhile is the model's reading
(log 7). -/
def Obligations.ResetHoldsRegisters : Prop :=
  ∀ s : State, Inv s → s.resetLine = true →
    ∃ t, step s = .next t ∧ registersAtReset t ∧ t.latch = none ∧
      (t.resetLine = false ↔ scheduledTurn s = .resetRelease)

/-- The reset state meets the invariant, in every configuration of 00_scope.md R7. -/
def Obligations.ResetMeetsInvariant : Prop := Inv State.reset ∧ ∀ c : Config, c.ok → Inv (State.resetWith c)

/-- Every step keeps the invariant: canonical memory inside BUF, legal STATUS (10_state.md R23), the latch valid exactly
while BUSY and equal to CMD and the operand registers (R20, R39), registers at reset while reset is asserted (R210). -/
def Obligations.StepKeepsInvariant : Prop := ∀ s t : State, Inv s → step s = .next t → Inv t

/-- 00_scope.md R6, R20: no step changes the parameters, so NELEM and BUFSIZE read the same at every time. -/
def Obligations.StepKeepsParameters : Prop :=
  ∀ s t : State, step s = .next t →
    t.cfg = s.cfg ∧ readSlot t 8#4 = readSlot s 8#4 ∧ readSlot t 9#4 = readSlot s 9#4

/-- In every state of the invariant the machine has a next state: no step faults, and none is refused. -/
def Obligations.StepAlwaysAnswersNext : Prop := ∀ s : State, Inv s → ∃ t, step s = .next t

/-- 70_reset_and_hazards.md R221: every accepted command completes after finitely many steps, however the host and the
engine are scheduled, unless reset intervenes. The bound is the length of the scheduler's list, after which the engine
moves: the model's form of weak fairness (logs 4 and 19). -/
def Obligations.AcceptedCommandCompletes : Prop :=
  ∀ s : State, Inv s → s.busy = true → (∀ t ∈ s.turns, t = .host ∨ t = .engine) →
    ∃ k t, 1 ≤ k ∧ k ≤ s.turns.length + 1 ∧ runSteps k s = .next t ∧
      t.busy = false ∧ statusDone t.status = true
end

