-- ==== Sys2Proof/Laws/Decode.lean ====
section
/-! SUPPORT. The fields of a command word and the word of its fields. -/

namespace Sys2Proof

theorem getLsbD_wordOfFields (op : BitVec 4) (mode : BitVec 1) (rsv : BitVec 27) (k : Nat) :
    (wordOfFields op mode rsv).getLsbD k =
      if k < 4 then op.getLsbD k else if k < 5 then mode.getLsbD (k - 4) else rsv.getLsbD (k - 5) := by
  show BitVec.getLsbD (w := 27 + 1 + 4) (rsv ++ mode ++ op) k = _
  rw [BitVec.getLsbD_append, BitVec.getLsbD_append]
  by_cases h4 : k < 4
  · simp [h4]
  · by_cases h5 : k < 5
    · simp [h4, h5, show k - 4 < 1 by omega]
    · simp only [h4, h5, show ¬ k - 4 < 1 by omega, if_false, show k - 4 - 1 = k - 5 by omega]

@[simp] theorem wordOp_wordOfFields (op : BitVec 4) (mode : BitVec 1) (rsv : BitVec 27) :
    wordOp (wordOfFields op mode rsv) = op := by
  refine BitVec.eq_of_getLsbD_eq fun k hk => ?_
  rw [wordOp, BitVec.getLsbD_extractLsb', getLsbD_wordOfFields, Nat.zero_add]
  simp only [hk, decide_true, Bool.true_and, if_true]

@[simp] theorem wordMode_wordOfFields (op : BitVec 4) (mode : BitVec 1) (rsv : BitVec 27) :
    wordMode (wordOfFields op mode rsv) = mode := by
  refine BitVec.eq_of_getLsbD_eq fun k hk => ?_
  rw [wordMode, BitVec.getLsbD_extractLsb', getLsbD_wordOfFields, if_neg (by omega), if_pos (by omega),
    Nat.add_sub_cancel_left]
  simp only [hk, decide_true, Bool.true_and]

@[simp] theorem wordRsv_wordOfFields (op : BitVec 4) (mode : BitVec 1) (rsv : BitVec 27) :
    wordRsv (wordOfFields op mode rsv) = rsv := by
  refine BitVec.eq_of_getLsbD_eq fun k hk => ?_
  rw [wordRsv, BitVec.getLsbD_extractLsb', getLsbD_wordOfFields, if_neg (by omega), if_neg (by omega),
    Nat.add_sub_cancel_left]
  simp only [hk, decide_true, Bool.true_and]

/-- A word is the word of its fields: no bit is outside OP, MODE and RSV (30_encoding.md R81). -/
theorem wordOfFields_fields (v : Word) : wordOfFields (wordOp v) (wordMode v) (wordRsv v) = v := by
  refine BitVec.eq_of_getLsbD_eq fun k hk => ?_
  rw [getLsbD_wordOfFields]
  simp only [wordOp, wordMode, wordRsv, BitVec.getLsbD_extractLsb']
  split_ifs with h4 h5
  · simp [h4]
  · simp [show k - 4 < 1 by omega, show 4 + (k - 4) = k by omega]
  · simp [show k - 5 < 27 by omega, show 5 + (k - 5) = k by omega]

end Sys2Proof
end

