-- ==== Sys2Proof/Laws/State.lean ====
section
/-! SUPPORT. What every field of the state is after every update: one lemma per field per update. -/

namespace Sys2Proof.Machine

/-! ## memWrite -/

@[simp] theorem memWrite_cfg (a : Nat) (bs : List Byte) (s : State) : (memWrite a bs s).cfg = s.cfg := rfl
@[simp] theorem memWrite_cmd (a : Nat) (bs : List Byte) (s : State) : (memWrite a bs s).cmd = s.cmd := rfl
@[simp] theorem memWrite_status (a : Nat) (bs : List Byte) (s : State) : (memWrite a bs s).status = s.status := rfl
@[simp] theorem memWrite_src (a : Nat) (bs : List Byte) (s : State) : (memWrite a bs s).src = s.src := rfl
@[simp] theorem memWrite_dst (a : Nat) (bs : List Byte) (s : State) : (memWrite a bs s).dst = s.dst := rfl
@[simp] theorem memWrite_len (a : Nat) (bs : List Byte) (s : State) : (memWrite a bs s).len = s.len := rfl
@[simp] theorem memWrite_count (a : Nat) (bs : List Byte) (s : State) : (memWrite a bs s).count = s.count := rfl
@[simp] theorem memWrite_nblobs (a : Nat) (bs : List Byte) (s : State) : (memWrite a bs s).nblobs = s.nblobs := rfl
@[simp] theorem memWrite_outlen (a : Nat) (bs : List Byte) (s : State) : (memWrite a bs s).outlen = s.outlen := rfl
@[simp] theorem memWrite_buf (a : Nat) (bs : List Byte) (s : State) : (memWrite a bs s).buf = s.buf.write a bs := rfl
@[simp] theorem memWrite_latch (a : Nat) (bs : List Byte) (s : State) : (memWrite a bs s).latch = s.latch := rfl
@[simp] theorem memWrite_hazard (a : Nat) (bs : List Byte) (s : State) : (memWrite a bs s).hazard = s.hazard := rfl
@[simp] theorem memWrite_bufDraw (a : Nat) (bs : List Byte) (s : State) : (memWrite a bs s).bufDraw = s.bufDraw := rfl
@[simp] theorem memWrite_draws (a : Nat) (bs : List Byte) (s : State) : (memWrite a bs s).draws = s.draws := rfl
@[simp] theorem memWrite_resetLine (a : Nat) (bs : List Byte) (s : State) :
    (memWrite a bs s).resetLine = s.resetLine := rfl
@[simp] theorem memWrite_turns (a : Nat) (bs : List Byte) (s : State) : (memWrite a bs s).turns = s.turns := rfl
@[simp] theorem memWrite_script (a : Nat) (bs : List Byte) (s : State) : (memWrite a bs s).script = s.script := rfl
@[simp] theorem memWrite_seen (a : Nat) (bs : List Byte) (s : State) : (memWrite a bs s).seen = s.seen := rfl
@[simp] theorem memWrite_checkFailed (a : Nat) (bs : List Byte) (s : State) :
    (memWrite a bs s).checkFailed = s.checkFailed := rfl

/-! ## settleHazard -/

@[simp] theorem settleHazard_cfg (src dst : Range) (s : State) :
    (settleHazard src dst s).cfg = s.cfg := by unfold settleHazard; split <;> rfl
@[simp] theorem settleHazard_cmd (src dst : Range) (s : State) :
    (settleHazard src dst s).cmd = s.cmd := by unfold settleHazard; split <;> rfl
@[simp] theorem settleHazard_status (src dst : Range) (s : State) :
    (settleHazard src dst s).status = s.status := by unfold settleHazard; split <;> rfl
@[simp] theorem settleHazard_src (src dst : Range) (s : State) :
    (settleHazard src dst s).src = s.src := by unfold settleHazard; split <;> rfl
@[simp] theorem settleHazard_dst (src dst : Range) (s : State) :
    (settleHazard src dst s).dst = s.dst := by unfold settleHazard; split <;> rfl
@[simp] theorem settleHazard_len (src dst : Range) (s : State) :
    (settleHazard src dst s).len = s.len := by unfold settleHazard; split <;> rfl
@[simp] theorem settleHazard_count (src dst : Range) (s : State) :
    (settleHazard src dst s).count = s.count := by unfold settleHazard; split <;> rfl
@[simp] theorem settleHazard_nblobs (src dst : Range) (s : State) :
    (settleHazard src dst s).nblobs = s.nblobs := by unfold settleHazard; split <;> rfl
@[simp] theorem settleHazard_outlen (src dst : Range) (s : State) :
    (settleHazard src dst s).outlen = s.outlen := by unfold settleHazard; split <;> rfl
@[simp] theorem settleHazard_latch (src dst : Range) (s : State) :
    (settleHazard src dst s).latch = s.latch := by unfold settleHazard; split <;> rfl
@[simp] theorem settleHazard_hazard (src dst : Range) (s : State) :
    (settleHazard src dst s).hazard = s.hazard := by unfold settleHazard; split <;> rfl
@[simp] theorem settleHazard_bufDraw (src dst : Range) (s : State) :
    (settleHazard src dst s).bufDraw = s.bufDraw := by unfold settleHazard; split <;> rfl
@[simp] theorem settleHazard_draws (src dst : Range) (s : State) :
    (settleHazard src dst s).draws = if s.hazard then s.draws + 1 else s.draws := by unfold settleHazard; split <;> rfl
@[simp] theorem settleHazard_resetLine (src dst : Range) (s : State) :
    (settleHazard src dst s).resetLine = s.resetLine := by unfold settleHazard; split <;> rfl
@[simp] theorem settleHazard_turns (src dst : Range) (s : State) :
    (settleHazard src dst s).turns = s.turns := by unfold settleHazard; split <;> rfl
@[simp] theorem settleHazard_script (src dst : Range) (s : State) :
    (settleHazard src dst s).script = s.script := by unfold settleHazard; split <;> rfl
@[simp] theorem settleHazard_seen (src dst : Range) (s : State) :
    (settleHazard src dst s).seen = s.seen := by unfold settleHazard; split <;> rfl
@[simp] theorem settleHazard_checkFailed (src dst : Range) (s : State) :
    (settleHazard src dst s).checkFailed = s.checkFailed := by unfold settleHazard; split <;> rfl

@[simp] theorem settleHazard_of_not_hazard (src dst : Range) (s : State) (h : s.hazard = false) :
    settleHazard src dst s = s := by simp [settleHazard, h]

/-! ## accept -/

@[simp] theorem accept_cfg (v : Word) (s : State) : (accept v s).cfg = s.cfg := rfl
@[simp] theorem accept_cmd (v : Word) (s : State) : (accept v s).cmd = v := rfl
@[simp] theorem accept_status (v : Word) (s : State) : (accept v s).status = statusAccepted s.status := rfl
@[simp] theorem accept_src (v : Word) (s : State) : (accept v s).src = s.src := rfl
@[simp] theorem accept_dst (v : Word) (s : State) : (accept v s).dst = s.dst := rfl
@[simp] theorem accept_len (v : Word) (s : State) : (accept v s).len = s.len := rfl
@[simp] theorem accept_count (v : Word) (s : State) : (accept v s).count = s.count := rfl
@[simp] theorem accept_nblobs (v : Word) (s : State) : (accept v s).nblobs = s.nblobs := rfl
@[simp] theorem accept_outlen (v : Word) (s : State) : (accept v s).outlen = s.outlen := rfl
@[simp] theorem accept_buf (v : Word) (s : State) : (accept v s).buf = s.buf := rfl
@[simp] theorem accept_latch (v : Word) (s : State) : (accept v s).latch = some (latchOf v s) := rfl
@[simp] theorem accept_hazard (v : Word) (s : State) : (accept v s).hazard = false := rfl
@[simp] theorem accept_bufDraw (v : Word) (s : State) : (accept v s).bufDraw = s.bufDraw := rfl
@[simp] theorem accept_draws (v : Word) (s : State) : (accept v s).draws = s.draws := rfl
@[simp] theorem accept_resetLine (v : Word) (s : State) : (accept v s).resetLine = s.resetLine := rfl
@[simp] theorem accept_turns (v : Word) (s : State) : (accept v s).turns = s.turns := rfl
@[simp] theorem accept_script (v : Word) (s : State) : (accept v s).script = s.script := rfl
@[simp] theorem accept_seen (v : Word) (s : State) : (accept v s).seen = s.seen := rfl
@[simp] theorem accept_checkFailed (v : Word) (s : State) : (accept v s).checkFailed = s.checkFailed := rfl

/-! ## complete -/

@[simp] theorem complete_cfg (e : ErrCode) (s : State) : (complete e s).cfg = s.cfg := rfl
@[simp] theorem complete_cmd (e : ErrCode) (s : State) : (complete e s).cmd = s.cmd := rfl
@[simp] theorem complete_status (e : ErrCode) (s : State) : (complete e s).status = statusCompleted e s.status := rfl
@[simp] theorem complete_src (e : ErrCode) (s : State) : (complete e s).src = s.src := rfl
@[simp] theorem complete_dst (e : ErrCode) (s : State) : (complete e s).dst = s.dst := rfl
@[simp] theorem complete_len (e : ErrCode) (s : State) : (complete e s).len = s.len := rfl
@[simp] theorem complete_count (e : ErrCode) (s : State) : (complete e s).count = s.count := rfl
@[simp] theorem complete_nblobs (e : ErrCode) (s : State) : (complete e s).nblobs = s.nblobs := rfl
@[simp] theorem complete_outlen (e : ErrCode) (s : State) : (complete e s).outlen = s.outlen := rfl
@[simp] theorem complete_buf (e : ErrCode) (s : State) : (complete e s).buf = s.buf := rfl
@[simp] theorem complete_latch (e : ErrCode) (s : State) : (complete e s).latch = none := rfl
@[simp] theorem complete_hazard (e : ErrCode) (s : State) : (complete e s).hazard = false := rfl
@[simp] theorem complete_bufDraw (e : ErrCode) (s : State) : (complete e s).bufDraw = s.bufDraw := rfl
@[simp] theorem complete_draws (e : ErrCode) (s : State) : (complete e s).draws = s.draws := rfl
@[simp] theorem complete_resetLine (e : ErrCode) (s : State) : (complete e s).resetLine = s.resetLine := rfl
@[simp] theorem complete_turns (e : ErrCode) (s : State) : (complete e s).turns = s.turns := rfl
@[simp] theorem complete_script (e : ErrCode) (s : State) : (complete e s).script = s.script := rfl
@[simp] theorem complete_seen (e : ErrCode) (s : State) : (complete e s).seen = s.seen := rfl
@[simp] theorem complete_checkFailed (e : ErrCode) (s : State) : (complete e s).checkFailed = s.checkFailed := rfl

/-! ## reset -/

@[simp] theorem resetMachine_cfg (s : State) : (resetMachine s).cfg = s.cfg := rfl
@[simp] theorem resetMachine_cmd (s : State) : (resetMachine s).cmd = 0#32 := rfl
@[simp] theorem resetMachine_status (s : State) : (resetMachine s).status = 0#32 := rfl
@[simp] theorem resetMachine_src (s : State) : (resetMachine s).src = 0#32 := rfl
@[simp] theorem resetMachine_dst (s : State) : (resetMachine s).dst = 0#32 := rfl
@[simp] theorem resetMachine_len (s : State) : (resetMachine s).len = 0#32 := rfl
@[simp] theorem resetMachine_count (s : State) : (resetMachine s).count = 0#32 := rfl
@[simp] theorem resetMachine_nblobs (s : State) : (resetMachine s).nblobs = 0#32 := rfl
@[simp] theorem resetMachine_outlen (s : State) : (resetMachine s).outlen = 0#32 := rfl
@[simp] theorem resetMachine_buf (s : State) : (resetMachine s).buf = [] := rfl
@[simp] theorem resetMachine_latch (s : State) : (resetMachine s).latch = none := rfl
@[simp] theorem resetMachine_hazard (s : State) : (resetMachine s).hazard = false := rfl
@[simp] theorem resetMachine_bufDraw (s : State) : (resetMachine s).bufDraw = s.draws := rfl
@[simp] theorem resetMachine_draws (s : State) : (resetMachine s).draws = s.draws + 1 := rfl
@[simp] theorem resetMachine_resetLine (s : State) : (resetMachine s).resetLine = s.resetLine := rfl
@[simp] theorem resetMachine_turns (s : State) : (resetMachine s).turns = s.turns := rfl
@[simp] theorem resetMachine_script (s : State) : (resetMachine s).script = s.script := rfl
@[simp] theorem resetMachine_seen (s : State) : (resetMachine s).seen = s.seen := rfl
@[simp] theorem resetMachine_checkFailed (s : State) : (resetMachine s).checkFailed = s.checkFailed := rfl

@[simp] theorem assertReset_cfg (s : State) : (assertReset s).cfg = s.cfg := rfl
@[simp] theorem assertReset_cmd (s : State) : (assertReset s).cmd = 0#32 := rfl
@[simp] theorem assertReset_status (s : State) : (assertReset s).status = 0#32 := rfl
@[simp] theorem assertReset_src (s : State) : (assertReset s).src = 0#32 := rfl
@[simp] theorem assertReset_dst (s : State) : (assertReset s).dst = 0#32 := rfl
@[simp] theorem assertReset_len (s : State) : (assertReset s).len = 0#32 := rfl
@[simp] theorem assertReset_count (s : State) : (assertReset s).count = 0#32 := rfl
@[simp] theorem assertReset_nblobs (s : State) : (assertReset s).nblobs = 0#32 := rfl
@[simp] theorem assertReset_outlen (s : State) : (assertReset s).outlen = 0#32 := rfl
@[simp] theorem assertReset_buf (s : State) : (assertReset s).buf = [] := rfl
@[simp] theorem assertReset_latch (s : State) : (assertReset s).latch = none := rfl
@[simp] theorem assertReset_hazard (s : State) : (assertReset s).hazard = false := rfl
@[simp] theorem assertReset_bufDraw (s : State) : (assertReset s).bufDraw = s.draws := rfl
@[simp] theorem assertReset_draws (s : State) : (assertReset s).draws = s.draws + 1 := rfl
@[simp] theorem assertReset_resetLine (s : State) : (assertReset s).resetLine = true := rfl
@[simp] theorem assertReset_turns (s : State) : (assertReset s).turns = s.turns := rfl
@[simp] theorem assertReset_script (s : State) : (assertReset s).script = s.script := rfl
@[simp] theorem assertReset_seen (s : State) : (assertReset s).seen = s.seen := rfl
@[simp] theorem assertReset_checkFailed (s : State) : (assertReset s).checkFailed = s.checkFailed := rfl

/-! ## useTurn -/

@[simp] theorem useTurn_cfg (s : State) : (useTurn s).cfg = s.cfg := rfl
@[simp] theorem useTurn_cmd (s : State) : (useTurn s).cmd = s.cmd := rfl
@[simp] theorem useTurn_status (s : State) : (useTurn s).status = s.status := rfl
@[simp] theorem useTurn_src (s : State) : (useTurn s).src = s.src := rfl
@[simp] theorem useTurn_dst (s : State) : (useTurn s).dst = s.dst := rfl
@[simp] theorem useTurn_len (s : State) : (useTurn s).len = s.len := rfl
@[simp] theorem useTurn_count (s : State) : (useTurn s).count = s.count := rfl
@[simp] theorem useTurn_nblobs (s : State) : (useTurn s).nblobs = s.nblobs := rfl
@[simp] theorem useTurn_outlen (s : State) : (useTurn s).outlen = s.outlen := rfl
@[simp] theorem useTurn_buf (s : State) : (useTurn s).buf = s.buf := rfl
@[simp] theorem useTurn_latch (s : State) : (useTurn s).latch = s.latch := rfl
@[simp] theorem useTurn_hazard (s : State) : (useTurn s).hazard = s.hazard := rfl
@[simp] theorem useTurn_bufDraw (s : State) : (useTurn s).bufDraw = s.bufDraw := rfl
@[simp] theorem useTurn_draws (s : State) : (useTurn s).draws = s.draws := rfl
@[simp] theorem useTurn_resetLine (s : State) : (useTurn s).resetLine = s.resetLine := rfl
@[simp] theorem useTurn_turns (s : State) : (useTurn s).turns = s.turns.tail := rfl
@[simp] theorem useTurn_script (s : State) : (useTurn s).script = s.script := rfl
@[simp] theorem useTurn_seen (s : State) : (useTurn s).seen = s.seen := rfl
@[simp] theorem useTurn_checkFailed (s : State) : (useTurn s).checkFailed = s.checkFailed := rfl

/-! ## loadCommand -/

@[simp] theorem loadCommand_cfg (v : Word) (s : State) : (loadCommand v s).cfg = s.cfg := rfl
@[simp] theorem loadCommand_cmd (v : Word) (s : State) : (loadCommand v s).cmd = v := rfl
@[simp] theorem loadCommand_status (v : Word) (s : State) : (loadCommand v s).status = statusAccepted s.status := rfl
@[simp] theorem loadCommand_src (v : Word) (s : State) : (loadCommand v s).src = s.src := rfl
@[simp] theorem loadCommand_dst (v : Word) (s : State) : (loadCommand v s).dst = s.dst := rfl
@[simp] theorem loadCommand_len (v : Word) (s : State) : (loadCommand v s).len = s.len := rfl
@[simp] theorem loadCommand_count (v : Word) (s : State) : (loadCommand v s).count = s.count := rfl
@[simp] theorem loadCommand_nblobs (v : Word) (s : State) : (loadCommand v s).nblobs = s.nblobs := rfl
@[simp] theorem loadCommand_outlen (v : Word) (s : State) : (loadCommand v s).outlen = s.outlen := rfl
@[simp] theorem loadCommand_buf (v : Word) (s : State) : (loadCommand v s).buf = s.buf := rfl
@[simp] theorem loadCommand_latch (v : Word) (s : State) : (loadCommand v s).latch = some (latchOf v s) := rfl
@[simp] theorem loadCommand_hazard (v : Word) (s : State) : (loadCommand v s).hazard = false := rfl
@[simp] theorem loadCommand_bufDraw (v : Word) (s : State) : (loadCommand v s).bufDraw = s.bufDraw := rfl
@[simp] theorem loadCommand_draws (v : Word) (s : State) : (loadCommand v s).draws = s.draws := rfl
@[simp] theorem loadCommand_resetLine (v : Word) (s : State) : (loadCommand v s).resetLine = false := rfl
@[simp] theorem loadCommand_turns (v : Word) (s : State) : (loadCommand v s).turns = .engine :: s.turns := rfl
@[simp] theorem loadCommand_script (v : Word) (s : State) : (loadCommand v s).script = s.script := rfl
@[simp] theorem loadCommand_seen (v : Word) (s : State) : (loadCommand v s).seen = s.seen := rfl
@[simp] theorem loadCommand_checkFailed (v : Word) (s : State) : (loadCommand v s).checkFailed = s.checkFailed := rfl

/-! ## the host's reads -/

@[simp] theorem observeSlot_cfg (k : BitVec 4) (s : State) : (observeSlot k s).cfg = s.cfg := rfl
@[simp] theorem observeSlot_cmd (k : BitVec 4) (s : State) : (observeSlot k s).cmd = s.cmd := rfl
@[simp] theorem observeSlot_status (k : BitVec 4) (s : State) : (observeSlot k s).status = s.status := rfl
@[simp] theorem observeSlot_src (k : BitVec 4) (s : State) : (observeSlot k s).src = s.src := rfl
@[simp] theorem observeSlot_dst (k : BitVec 4) (s : State) : (observeSlot k s).dst = s.dst := rfl
@[simp] theorem observeSlot_len (k : BitVec 4) (s : State) : (observeSlot k s).len = s.len := rfl
@[simp] theorem observeSlot_count (k : BitVec 4) (s : State) : (observeSlot k s).count = s.count := rfl
@[simp] theorem observeSlot_nblobs (k : BitVec 4) (s : State) : (observeSlot k s).nblobs = s.nblobs := rfl
@[simp] theorem observeSlot_outlen (k : BitVec 4) (s : State) : (observeSlot k s).outlen = s.outlen := rfl
@[simp] theorem observeSlot_buf (k : BitVec 4) (s : State) : (observeSlot k s).buf = s.buf := rfl
@[simp] theorem observeSlot_latch (k : BitVec 4) (s : State) : (observeSlot k s).latch = s.latch := rfl
@[simp] theorem observeSlot_hazard (k : BitVec 4) (s : State) : (observeSlot k s).hazard = s.hazard := rfl
@[simp] theorem observeSlot_bufDraw (k : BitVec 4) (s : State) : (observeSlot k s).bufDraw = s.bufDraw := rfl
@[simp] theorem observeSlot_draws (k : BitVec 4) (s : State) : (observeSlot k s).draws = s.draws := rfl
@[simp] theorem observeSlot_resetLine (k : BitVec 4) (s : State) : (observeSlot k s).resetLine = s.resetLine := rfl
@[simp] theorem observeSlot_turns (k : BitVec 4) (s : State) : (observeSlot k s).turns = s.turns := rfl
@[simp] theorem observeSlot_script (k : BitVec 4) (s : State) : (observeSlot k s).script = s.script := rfl
@[simp] theorem observeSlot_seen (k : BitVec 4) (s : State) :
    (observeSlot k s).seen = .reg k (readSlot s k) :: s.seen := rfl
@[simp] theorem observeSlot_checkFailed (k : BitVec 4) (s : State) :
    (observeSlot k s).checkFailed = s.checkFailed := rfl

@[simp] theorem observeByte_cfg (a : Nat) (s : State) : (observeByte a s).cfg = s.cfg := rfl
@[simp] theorem observeByte_cmd (a : Nat) (s : State) : (observeByte a s).cmd = s.cmd := rfl
@[simp] theorem observeByte_status (a : Nat) (s : State) : (observeByte a s).status = s.status := rfl
@[simp] theorem observeByte_src (a : Nat) (s : State) : (observeByte a s).src = s.src := rfl
@[simp] theorem observeByte_dst (a : Nat) (s : State) : (observeByte a s).dst = s.dst := rfl
@[simp] theorem observeByte_len (a : Nat) (s : State) : (observeByte a s).len = s.len := rfl
@[simp] theorem observeByte_count (a : Nat) (s : State) : (observeByte a s).count = s.count := rfl
@[simp] theorem observeByte_nblobs (a : Nat) (s : State) : (observeByte a s).nblobs = s.nblobs := rfl
@[simp] theorem observeByte_outlen (a : Nat) (s : State) : (observeByte a s).outlen = s.outlen := rfl
@[simp] theorem observeByte_buf (a : Nat) (s : State) : (observeByte a s).buf = s.buf := rfl
@[simp] theorem observeByte_latch (a : Nat) (s : State) : (observeByte a s).latch = s.latch := rfl
@[simp] theorem observeByte_hazard (a : Nat) (s : State) : (observeByte a s).hazard = s.hazard := rfl
@[simp] theorem observeByte_bufDraw (a : Nat) (s : State) : (observeByte a s).bufDraw = s.bufDraw := rfl
@[simp] theorem observeByte_draws (a : Nat) (s : State) :
    (observeByte a s).draws = if readDraws s a then s.draws + 1 else s.draws := rfl
@[simp] theorem observeByte_resetLine (a : Nat) (s : State) : (observeByte a s).resetLine = s.resetLine := rfl
@[simp] theorem observeByte_turns (a : Nat) (s : State) : (observeByte a s).turns = s.turns := rfl
@[simp] theorem observeByte_script (a : Nat) (s : State) : (observeByte a s).script = s.script := rfl
@[simp] theorem observeByte_seen (a : Nat) (s : State) :
    (observeByte a s).seen = .byte a (hostReadValue s a) :: s.seen := rfl
@[simp] theorem observeByte_checkFailed (a : Nat) (s : State) : (observeByte a s).checkFailed = s.checkFailed := rfl

/-! ## the host's byte write -/

@[simp] theorem hostWriteByte_cfg (a : Nat) (v : Byte) (s : State) :
    (hostWriteByte a v s).cfg = s.cfg := by unfold hostWriteByte; split <;> rfl
@[simp] theorem hostWriteByte_cmd (a : Nat) (v : Byte) (s : State) :
    (hostWriteByte a v s).cmd = s.cmd := by unfold hostWriteByte; split <;> rfl
@[simp] theorem hostWriteByte_status (a : Nat) (v : Byte) (s : State) :
    (hostWriteByte a v s).status = s.status := by unfold hostWriteByte; split <;> rfl
@[simp] theorem hostWriteByte_src (a : Nat) (v : Byte) (s : State) :
    (hostWriteByte a v s).src = s.src := by unfold hostWriteByte; split <;> rfl
@[simp] theorem hostWriteByte_dst (a : Nat) (v : Byte) (s : State) :
    (hostWriteByte a v s).dst = s.dst := by unfold hostWriteByte; split <;> rfl
@[simp] theorem hostWriteByte_len (a : Nat) (v : Byte) (s : State) :
    (hostWriteByte a v s).len = s.len := by unfold hostWriteByte; split <;> rfl
@[simp] theorem hostWriteByte_count (a : Nat) (v : Byte) (s : State) :
    (hostWriteByte a v s).count = s.count := by unfold hostWriteByte; split <;> rfl
@[simp] theorem hostWriteByte_nblobs (a : Nat) (v : Byte) (s : State) :
    (hostWriteByte a v s).nblobs = s.nblobs := by unfold hostWriteByte; split <;> rfl
@[simp] theorem hostWriteByte_outlen (a : Nat) (v : Byte) (s : State) :
    (hostWriteByte a v s).outlen = s.outlen := by unfold hostWriteByte; split <;> rfl
@[simp] theorem hostWriteByte_latch (a : Nat) (v : Byte) (s : State) :
    (hostWriteByte a v s).latch = s.latch := by unfold hostWriteByte; split <;> rfl
@[simp] theorem hostWriteByte_bufDraw (a : Nat) (v : Byte) (s : State) :
    (hostWriteByte a v s).bufDraw = s.bufDraw := by unfold hostWriteByte; split <;> rfl
@[simp] theorem hostWriteByte_draws (a : Nat) (v : Byte) (s : State) :
    (hostWriteByte a v s).draws = s.draws := by unfold hostWriteByte; split <;> rfl
@[simp] theorem hostWriteByte_resetLine (a : Nat) (v : Byte) (s : State) :
    (hostWriteByte a v s).resetLine = s.resetLine := by unfold hostWriteByte; split <;> rfl
@[simp] theorem hostWriteByte_turns (a : Nat) (v : Byte) (s : State) :
    (hostWriteByte a v s).turns = s.turns := by unfold hostWriteByte; split <;> rfl
@[simp] theorem hostWriteByte_script (a : Nat) (v : Byte) (s : State) :
    (hostWriteByte a v s).script = s.script := by unfold hostWriteByte; split <;> rfl
@[simp] theorem hostWriteByte_seen (a : Nat) (v : Byte) (s : State) :
    (hostWriteByte a v s).seen = s.seen := by unfold hostWriteByte; split <;> rfl
@[simp] theorem hostWriteByte_checkFailed (a : Nat) (v : Byte) (s : State) :
    (hostWriteByte a v s).checkFailed = s.checkFailed := by unfold hostWriteByte; split <;> rfl

/-! ## the host's register write -/

@[simp] theorem writeSlot_cfg (k : BitVec 4) (v : Word) (s : State) : (writeSlot k v s).cfg = s.cfg := by
  unfold writeSlot writeSlotIdle; split_ifs <;> [rfl; rfl; (split <;> rfl)]
@[simp] theorem writeSlot_outlen (k : BitVec 4) (v : Word) (s : State) : (writeSlot k v s).outlen = s.outlen := by
  unfold writeSlot writeSlotIdle; split_ifs <;> [rfl; rfl; (split <;> rfl)]
@[simp] theorem writeSlot_buf (k : BitVec 4) (v : Word) (s : State) : (writeSlot k v s).buf = s.buf := by
  unfold writeSlot writeSlotIdle; split_ifs <;> [rfl; rfl; (split <;> rfl)]
@[simp] theorem writeSlot_bufDraw (k : BitVec 4) (v : Word) (s : State) : (writeSlot k v s).bufDraw = s.bufDraw := by
  unfold writeSlot writeSlotIdle; split_ifs <;> [rfl; rfl; (split <;> rfl)]
@[simp] theorem writeSlot_draws (k : BitVec 4) (v : Word) (s : State) : (writeSlot k v s).draws = s.draws := by
  unfold writeSlot writeSlotIdle; split_ifs <;> [rfl; rfl; (split <;> rfl)]
@[simp] theorem writeSlot_resetLine (k : BitVec 4) (v : Word) (s : State) :
    (writeSlot k v s).resetLine = s.resetLine := by
  unfold writeSlot writeSlotIdle; split_ifs <;> [rfl; rfl; (split <;> rfl)]
@[simp] theorem writeSlot_turns (k : BitVec 4) (v : Word) (s : State) : (writeSlot k v s).turns = s.turns := by
  unfold writeSlot writeSlotIdle; split_ifs <;> [rfl; rfl; (split <;> rfl)]
@[simp] theorem writeSlot_script (k : BitVec 4) (v : Word) (s : State) : (writeSlot k v s).script = s.script := by
  unfold writeSlot writeSlotIdle; split_ifs <;> [rfl; rfl; (split <;> rfl)]
@[simp] theorem writeSlot_seen (k : BitVec 4) (v : Word) (s : State) : (writeSlot k v s).seen = s.seen := by
  unfold writeSlot writeSlotIdle; split_ifs <;> [rfl; rfl; (split <;> rfl)]
@[simp] theorem writeSlot_checkFailed (k : BitVec 4) (v : Word) (s : State) :
    (writeSlot k v s).checkFailed = s.checkFailed := by
  unfold writeSlot writeSlotIdle; split_ifs <;> [rfl; rfl; (split <;> rfl)]

/-! ## the effects of the commands -/

@[simp] theorem packEffect_cfg (m : Mode) (l : Latch) (s : State) : (packEffect m l s).cfg = s.cfg := rfl
@[simp] theorem packEffect_cmd (m : Mode) (l : Latch) (s : State) : (packEffect m l s).cmd = s.cmd := rfl
@[simp] theorem packEffect_status (m : Mode) (l : Latch) (s : State) : (packEffect m l s).status = s.status := rfl
@[simp] theorem packEffect_src (m : Mode) (l : Latch) (s : State) : (packEffect m l s).src = s.src := rfl
@[simp] theorem packEffect_dst (m : Mode) (l : Latch) (s : State) : (packEffect m l s).dst = s.dst := rfl
@[simp] theorem packEffect_len (m : Mode) (l : Latch) (s : State) : (packEffect m l s).len = s.len := rfl
@[simp] theorem packEffect_count (m : Mode) (l : Latch) (s : State) :
    (packEffect m l s).count = BitVec.ofNat 32 (chunkCount l.len.toNat (usableBits m)) := rfl
@[simp] theorem packEffect_nblobs (m : Mode) (l : Latch) (s : State) : (packEffect m l s).nblobs = s.nblobs := rfl
@[simp] theorem packEffect_outlen (m : Mode) (l : Latch) (s : State) :
    (packEffect m l s).outlen = BitVec.ofNat 32 (dstSize .pack m s.cfg l) := rfl
@[simp] theorem packEffect_latch (m : Mode) (l : Latch) (s : State) : (packEffect m l s).latch = s.latch := rfl
@[simp] theorem packEffect_hazard (m : Mode) (l : Latch) (s : State) : (packEffect m l s).hazard = s.hazard := rfl
@[simp] theorem packEffect_bufDraw (m : Mode) (l : Latch) (s : State) : (packEffect m l s).bufDraw = s.bufDraw := rfl
@[simp] theorem packEffect_draws (m : Mode) (l : Latch) (s : State) : (packEffect m l s).draws = s.draws := rfl
@[simp] theorem packEffect_resetLine (m : Mode) (l : Latch) (s : State) :
    (packEffect m l s).resetLine = s.resetLine := rfl
@[simp] theorem packEffect_turns (m : Mode) (l : Latch) (s : State) : (packEffect m l s).turns = s.turns := rfl
@[simp] theorem packEffect_script (m : Mode) (l : Latch) (s : State) : (packEffect m l s).script = s.script := rfl
@[simp] theorem packEffect_seen (m : Mode) (l : Latch) (s : State) : (packEffect m l s).seen = s.seen := rfl
@[simp] theorem packEffect_checkFailed (m : Mode) (l : Latch) (s : State) :
    (packEffect m l s).checkFailed = s.checkFailed := rfl

@[simp] theorem unpackEffect_cfg (m : Mode) (l : Latch) (s : State) : (unpackEffect m l s).cfg = s.cfg := rfl
@[simp] theorem unpackEffect_cmd (m : Mode) (l : Latch) (s : State) : (unpackEffect m l s).cmd = s.cmd := rfl
@[simp] theorem unpackEffect_status (m : Mode) (l : Latch) (s : State) : (unpackEffect m l s).status = s.status := rfl
@[simp] theorem unpackEffect_src (m : Mode) (l : Latch) (s : State) : (unpackEffect m l s).src = s.src := rfl
@[simp] theorem unpackEffect_dst (m : Mode) (l : Latch) (s : State) : (unpackEffect m l s).dst = s.dst := rfl
@[simp] theorem unpackEffect_len (m : Mode) (l : Latch) (s : State) : (unpackEffect m l s).len = s.len := rfl
@[simp] theorem unpackEffect_count (m : Mode) (l : Latch) (s : State) : (unpackEffect m l s).count = s.count := rfl
@[simp] theorem unpackEffect_nblobs (m : Mode) (l : Latch) (s : State) : (unpackEffect m l s).nblobs = s.nblobs := rfl
@[simp] theorem unpackEffect_outlen (m : Mode) (l : Latch) (s : State) : (unpackEffect m l s).outlen = l.len := rfl
@[simp] theorem unpackEffect_latch (m : Mode) (l : Latch) (s : State) : (unpackEffect m l s).latch = s.latch := rfl
@[simp] theorem unpackEffect_hazard (m : Mode) (l : Latch) (s : State) : (unpackEffect m l s).hazard = s.hazard := rfl
@[simp] theorem unpackEffect_bufDraw (m : Mode) (l : Latch) (s : State) :
    (unpackEffect m l s).bufDraw = s.bufDraw := rfl
@[simp] theorem unpackEffect_draws (m : Mode) (l : Latch) (s : State) : (unpackEffect m l s).draws = s.draws := rfl
@[simp] theorem unpackEffect_resetLine (m : Mode) (l : Latch) (s : State) :
    (unpackEffect m l s).resetLine = s.resetLine := rfl
@[simp] theorem unpackEffect_turns (m : Mode) (l : Latch) (s : State) : (unpackEffect m l s).turns = s.turns := rfl
@[simp] theorem unpackEffect_script (m : Mode) (l : Latch) (s : State) : (unpackEffect m l s).script = s.script := rfl
@[simp] theorem unpackEffect_seen (m : Mode) (l : Latch) (s : State) : (unpackEffect m l s).seen = s.seen := rfl
@[simp] theorem unpackEffect_checkFailed (m : Mode) (l : Latch) (s : State) :
    (unpackEffect m l s).checkFailed = s.checkFailed := rfl

@[simp] theorem assembleEffect_cfg (m : Mode) (l : Latch) (s : State) : (assembleEffect m l s).cfg = s.cfg := rfl
@[simp] theorem assembleEffect_cmd (m : Mode) (l : Latch) (s : State) : (assembleEffect m l s).cmd = s.cmd := rfl
@[simp] theorem assembleEffect_status (m : Mode) (l : Latch) (s : State) :
    (assembleEffect m l s).status = s.status := rfl
@[simp] theorem assembleEffect_src (m : Mode) (l : Latch) (s : State) : (assembleEffect m l s).src = s.src := rfl
@[simp] theorem assembleEffect_dst (m : Mode) (l : Latch) (s : State) : (assembleEffect m l s).dst = s.dst := rfl
@[simp] theorem assembleEffect_len (m : Mode) (l : Latch) (s : State) : (assembleEffect m l s).len = s.len := rfl
@[simp] theorem assembleEffect_count (m : Mode) (l : Latch) (s : State) : (assembleEffect m l s).count = s.count := rfl
@[simp] theorem assembleEffect_nblobs (m : Mode) (l : Latch) (s : State) :
    (assembleEffect m l s).nblobs = BitVec.ofNat 32 (blobCount s.cfg.nElements l.count.toNat) := rfl
@[simp] theorem assembleEffect_outlen (m : Mode) (l : Latch) (s : State) :
    (assembleEffect m l s).outlen = BitVec.ofNat 32 (dstSize .assemble m s.cfg l) := rfl
@[simp] theorem assembleEffect_latch (m : Mode) (l : Latch) (s : State) : (assembleEffect m l s).latch = s.latch := rfl
@[simp] theorem assembleEffect_hazard (m : Mode) (l : Latch) (s : State) :
    (assembleEffect m l s).hazard = s.hazard := rfl
@[simp] theorem assembleEffect_bufDraw (m : Mode) (l : Latch) (s : State) :
    (assembleEffect m l s).bufDraw = s.bufDraw := rfl
@[simp] theorem assembleEffect_draws (m : Mode) (l : Latch) (s : State) : (assembleEffect m l s).draws = s.draws := rfl
@[simp] theorem assembleEffect_resetLine (m : Mode) (l : Latch) (s : State) :
    (assembleEffect m l s).resetLine = s.resetLine := rfl
@[simp] theorem assembleEffect_turns (m : Mode) (l : Latch) (s : State) : (assembleEffect m l s).turns = s.turns := rfl
@[simp] theorem assembleEffect_script (m : Mode) (l : Latch) (s : State) :
    (assembleEffect m l s).script = s.script := rfl
@[simp] theorem assembleEffect_seen (m : Mode) (l : Latch) (s : State) : (assembleEffect m l s).seen = s.seen := rfl
@[simp] theorem assembleEffect_checkFailed (m : Mode) (l : Latch) (s : State) :
    (assembleEffect m l s).checkFailed = s.checkFailed := rfl

@[simp] theorem disassembleEffect_cfg (m : Mode) (l : Latch) (s : State) : (disassembleEffect m l s).cfg = s.cfg := rfl
@[simp] theorem disassembleEffect_cmd (m : Mode) (l : Latch) (s : State) : (disassembleEffect m l s).cmd = s.cmd := rfl
@[simp] theorem disassembleEffect_status (m : Mode) (l : Latch) (s : State) :
    (disassembleEffect m l s).status = s.status := rfl
@[simp] theorem disassembleEffect_src (m : Mode) (l : Latch) (s : State) : (disassembleEffect m l s).src = s.src := rfl
@[simp] theorem disassembleEffect_dst (m : Mode) (l : Latch) (s : State) : (disassembleEffect m l s).dst = s.dst := rfl
@[simp] theorem disassembleEffect_len (m : Mode) (l : Latch) (s : State) : (disassembleEffect m l s).len = s.len := rfl
@[simp] theorem disassembleEffect_count (m : Mode) (l : Latch) (s : State) :
    (disassembleEffect m l s).count = s.count := rfl
@[simp] theorem disassembleEffect_nblobs (m : Mode) (l : Latch) (s : State) :
    (disassembleEffect m l s).nblobs = s.nblobs := rfl
@[simp] theorem disassembleEffect_outlen (m : Mode) (l : Latch) (s : State) :
    (disassembleEffect m l s).outlen = BitVec.ofNat 32 (dstSize .disassemble m s.cfg l) := rfl
@[simp] theorem disassembleEffect_latch (m : Mode) (l : Latch) (s : State) :
    (disassembleEffect m l s).latch = s.latch := rfl
@[simp] theorem disassembleEffect_hazard (m : Mode) (l : Latch) (s : State) :
    (disassembleEffect m l s).hazard = s.hazard := rfl
@[simp] theorem disassembleEffect_bufDraw (m : Mode) (l : Latch) (s : State) :
    (disassembleEffect m l s).bufDraw = s.bufDraw := rfl
@[simp] theorem disassembleEffect_draws (m : Mode) (l : Latch) (s : State) :
    (disassembleEffect m l s).draws = s.draws := rfl
@[simp] theorem disassembleEffect_resetLine (m : Mode) (l : Latch) (s : State) :
    (disassembleEffect m l s).resetLine = s.resetLine := rfl
@[simp] theorem disassembleEffect_turns (m : Mode) (l : Latch) (s : State) :
    (disassembleEffect m l s).turns = s.turns := rfl
@[simp] theorem disassembleEffect_script (m : Mode) (l : Latch) (s : State) :
    (disassembleEffect m l s).script = s.script := rfl
@[simp] theorem disassembleEffect_seen (m : Mode) (l : Latch) (s : State) :
    (disassembleEffect m l s).seen = s.seen := rfl
@[simp] theorem disassembleEffect_checkFailed (m : Mode) (l : Latch) (s : State) :
    (disassembleEffect m l s).checkFailed = s.checkFailed := rfl

@[simp] theorem encodeEffect_cfg (m : Mode) (l : Latch) (s : State) : (encodeEffect m l s).cfg = s.cfg := rfl
@[simp] theorem encodeEffect_cmd (m : Mode) (l : Latch) (s : State) : (encodeEffect m l s).cmd = s.cmd := rfl
@[simp] theorem encodeEffect_status (m : Mode) (l : Latch) (s : State) : (encodeEffect m l s).status = s.status := rfl
@[simp] theorem encodeEffect_src (m : Mode) (l : Latch) (s : State) : (encodeEffect m l s).src = s.src := rfl
@[simp] theorem encodeEffect_dst (m : Mode) (l : Latch) (s : State) : (encodeEffect m l s).dst = s.dst := rfl
@[simp] theorem encodeEffect_len (m : Mode) (l : Latch) (s : State) : (encodeEffect m l s).len = s.len := rfl
@[simp] theorem encodeEffect_count (m : Mode) (l : Latch) (s : State) :
    (encodeEffect m l s).count = BitVec.ofNat 32 (chunkCount l.len.toNat (usableBits m)) := rfl
@[simp] theorem encodeEffect_nblobs (m : Mode) (l : Latch) (s : State) :
    (encodeEffect m l s).nblobs = BitVec.ofNat 32 (blobCount s.cfg.nElements (chunkCount l.len.toNat (usableBits m))) := rfl
@[simp] theorem encodeEffect_outlen (m : Mode) (l : Latch) (s : State) :
    (encodeEffect m l s).outlen = BitVec.ofNat 32 (dstSize .encode m s.cfg l) := rfl
@[simp] theorem encodeEffect_latch (m : Mode) (l : Latch) (s : State) : (encodeEffect m l s).latch = s.latch := rfl
@[simp] theorem encodeEffect_hazard (m : Mode) (l : Latch) (s : State) : (encodeEffect m l s).hazard = s.hazard := rfl
@[simp] theorem encodeEffect_bufDraw (m : Mode) (l : Latch) (s : State) :
    (encodeEffect m l s).bufDraw = s.bufDraw := rfl
@[simp] theorem encodeEffect_draws (m : Mode) (l : Latch) (s : State) : (encodeEffect m l s).draws = s.draws := rfl
@[simp] theorem encodeEffect_resetLine (m : Mode) (l : Latch) (s : State) :
    (encodeEffect m l s).resetLine = s.resetLine := rfl
@[simp] theorem encodeEffect_turns (m : Mode) (l : Latch) (s : State) : (encodeEffect m l s).turns = s.turns := rfl
@[simp] theorem encodeEffect_script (m : Mode) (l : Latch) (s : State) : (encodeEffect m l s).script = s.script := rfl
@[simp] theorem encodeEffect_seen (m : Mode) (l : Latch) (s : State) : (encodeEffect m l s).seen = s.seen := rfl
@[simp] theorem encodeEffect_checkFailed (m : Mode) (l : Latch) (s : State) :
    (encodeEffect m l s).checkFailed = s.checkFailed := rfl

@[simp] theorem decodeEffect_cfg (m : Mode) (l : Latch) (s : State) : (decodeEffect m l s).cfg = s.cfg := rfl
@[simp] theorem decodeEffect_cmd (m : Mode) (l : Latch) (s : State) : (decodeEffect m l s).cmd = s.cmd := rfl
@[simp] theorem decodeEffect_status (m : Mode) (l : Latch) (s : State) : (decodeEffect m l s).status = s.status := rfl
@[simp] theorem decodeEffect_src (m : Mode) (l : Latch) (s : State) : (decodeEffect m l s).src = s.src := rfl
@[simp] theorem decodeEffect_dst (m : Mode) (l : Latch) (s : State) : (decodeEffect m l s).dst = s.dst := rfl
@[simp] theorem decodeEffect_len (m : Mode) (l : Latch) (s : State) : (decodeEffect m l s).len = s.len := rfl
@[simp] theorem decodeEffect_count (m : Mode) (l : Latch) (s : State) :
    (decodeEffect m l s).count = BitVec.ofNat 32 (chunkCount l.len.toNat (usableBits m)) := rfl
@[simp] theorem decodeEffect_nblobs (m : Mode) (l : Latch) (s : State) : (decodeEffect m l s).nblobs = s.nblobs := rfl
@[simp] theorem decodeEffect_outlen (m : Mode) (l : Latch) (s : State) : (decodeEffect m l s).outlen = l.len := rfl
@[simp] theorem decodeEffect_latch (m : Mode) (l : Latch) (s : State) : (decodeEffect m l s).latch = s.latch := rfl
@[simp] theorem decodeEffect_hazard (m : Mode) (l : Latch) (s : State) : (decodeEffect m l s).hazard = s.hazard := rfl
@[simp] theorem decodeEffect_bufDraw (m : Mode) (l : Latch) (s : State) :
    (decodeEffect m l s).bufDraw = s.bufDraw := rfl
@[simp] theorem decodeEffect_draws (m : Mode) (l : Latch) (s : State) : (decodeEffect m l s).draws = s.draws := rfl
@[simp] theorem decodeEffect_resetLine (m : Mode) (l : Latch) (s : State) :
    (decodeEffect m l s).resetLine = s.resetLine := rfl
@[simp] theorem decodeEffect_turns (m : Mode) (l : Latch) (s : State) : (decodeEffect m l s).turns = s.turns := rfl
@[simp] theorem decodeEffect_script (m : Mode) (l : Latch) (s : State) : (decodeEffect m l s).script = s.script := rfl
@[simp] theorem decodeEffect_seen (m : Mode) (l : Latch) (s : State) : (decodeEffect m l s).seen = s.seen := rfl
@[simp] theorem decodeEffect_checkFailed (m : Mode) (l : Latch) (s : State) :
    (decodeEffect m l s).checkFailed = s.checkFailed := rfl

end Sys2Proof.Machine
end

