-- ==== Sys2Proof/Laws/Flags.lean ====
section
/-! SUPPORT. The fields of STATUS after each procedure that writes it. -/

namespace Sys2Proof.Machine

theorem getLsbD_writeErr (e : BitVec 4) (w : Word) (k : Nat) (hk : k < 32) :
    (writeErr e w).getLsbD k = if 4 ≤ k ∧ k < 8 then e.getLsbD (k - 4) else w.getLsbD k := by
  have hm : (0xF0#32).getLsbD k = decide (4 ≤ k ∧ k < 8) := by
    interval_cases k <;> decide
  simp only [writeErr, BitVec.getLsbD_or, BitVec.getLsbD_and, BitVec.getLsbD_not, hk, decide_true, Bool.true_and, hm,
    BitVec.getLsbD_shiftLeft, BitVec.getLsbD_setWidth]
  by_cases h : 4 ≤ k ∧ k < 8
  · have h4 : ¬ k < 4 := by omega
    simp [h, h4]
    intro _; omega
  · by_cases h4 : k < 4
    · simp [h4, h]
    · have : 4 ≤ k - 4 := by omega
      simp [h, h4, BitVec.getLsbD_of_ge e _ this]

theorem getLsbD_writeBit (j : Nat) (b : Bool) (w : Word) (k : Nat) (hk : k < 32) :
    (writeBit j b w).getLsbD k = if k = j then b else w.getLsbD k := by
  have h1 : (1#32 <<< j).getLsbD k = decide (k = j) := by
    simp only [BitVec.getLsbD_shiftLeft, BitVec.getLsbD_one, hk, decide_true, Bool.true_and]
    by_cases h : k = j
    · simp [h]
    · simp only [h, decide_false]
      by_cases h' : k < j
      · simp [h']
      · simp; omega
  cases b <;> simp only [writeBit, Bool.false_eq_true, if_true, if_false, BitVec.getLsbD_or, BitVec.getLsbD_and,
    BitVec.getLsbD_not, hk, decide_true, Bool.true_and, h1]
  all_goals by_cases h : k = j <;> simp [h]

theorem statusErr_eq (w : Word) (e : BitVec 4) (h : ∀ k, k < 4 → w.getLsbD (4 + k) = e.getLsbD k) :
    statusErr w = e := by
  refine BitVec.eq_of_getLsbD_eq fun k hk => ?_
  simp [statusErr, hk, h k hk]

/-! ## Completion (60_exceptions.md R189) -/

theorem getLsbD_statusCompleted (e : ErrCode) (w : Word) (k : Nat) (hk : k < 32) :
    (statusCompleted e w).getLsbD k =
      if 4 ≤ k ∧ k < 8 then (errBits e).getLsbD (k - 4) else if k = 1 then true else if k = 0 then false
      else w.getLsbD k := by
  rw [statusCompleted, getLsbD_writeErr _ _ _ hk, getLsbD_writeBit _ _ _ _ hk, getLsbD_writeBit _ _ _ _ hk]

@[simp] theorem statusBusy_completed (e : ErrCode) (w : Word) : statusBusy (statusCompleted e w) = false := by
  rw [statusBusy, getLsbD_statusCompleted _ _ _ (by omega)]; simp

@[simp] theorem statusDone_completed (e : ErrCode) (w : Word) : statusDone (statusCompleted e w) = true := by
  rw [statusDone, getLsbD_statusCompleted _ _ _ (by omega)]; simp

@[simp] theorem statusWerr_completed (e : ErrCode) (w : Word) :
    statusWerr (statusCompleted e w) = statusWerr w := by
  rw [statusWerr, getLsbD_statusCompleted _ _ _ (by omega)]; simp [statusWerr]

@[simp] theorem statusErr_completed (e : ErrCode) (w : Word) : statusErr (statusCompleted e w) = errBits e := by
  refine statusErr_eq _ _ fun k hk => ?_
  rw [getLsbD_statusCompleted _ _ _ (by omega), if_pos (by omega)]
  congr 1; omega

/-! ## Acceptance (60_exceptions.md R190) -/

theorem getLsbD_statusAccepted (w : Word) (k : Nat) (hk : k < 32) :
    (statusAccepted w).getLsbD k =
      if 4 ≤ k ∧ k < 8 then false else if k = 2 then false else if k = 1 then false else if k = 0 then true
      else w.getLsbD k := by
  rw [statusAccepted, getLsbD_writeErr _ _ _ hk, getLsbD_writeBit _ _ _ _ hk, getLsbD_writeBit _ _ _ _ hk,
    getLsbD_writeBit _ _ _ _ hk]
  simp

@[simp] theorem statusBusy_accepted (w : Word) : statusBusy (statusAccepted w) = true := by
  rw [statusBusy, getLsbD_statusAccepted _ _ (by omega)]; simp

@[simp] theorem statusDone_accepted (w : Word) : statusDone (statusAccepted w) = false := by
  rw [statusDone, getLsbD_statusAccepted _ _ (by omega)]; simp

@[simp] theorem statusWerr_accepted (w : Word) : statusWerr (statusAccepted w) = false := by
  rw [statusWerr, getLsbD_statusAccepted _ _ (by omega)]; simp

@[simp] theorem statusErr_accepted (w : Word) : statusErr (statusAccepted w) = 0#4 := by
  refine statusErr_eq _ _ fun k hk => ?_
  rw [getLsbD_statusAccepted _ _ (by omega), if_pos (by omega)]; simp

/-! ## A dropped write (60_exceptions.md R192) -/

theorem getLsbD_statusDropped (w : Word) (k : Nat) (hk : k < 32) :
    (statusDropped w).getLsbD k = if k = 2 then true else w.getLsbD k := by
  rw [statusDropped, getLsbD_writeBit _ _ _ _ hk]

@[simp] theorem statusBusy_dropped (w : Word) : statusBusy (statusDropped w) = statusBusy w := by
  rw [statusBusy, getLsbD_statusDropped _ _ (by omega)]; simp [statusBusy]

@[simp] theorem statusDone_dropped (w : Word) : statusDone (statusDropped w) = statusDone w := by
  rw [statusDone, getLsbD_statusDropped _ _ (by omega)]; simp [statusDone]

@[simp] theorem statusWerr_dropped (w : Word) : statusWerr (statusDropped w) = true := by
  rw [statusWerr, getLsbD_statusDropped _ _ (by omega)]; simp

@[simp] theorem statusErr_dropped (w : Word) : statusErr (statusDropped w) = statusErr w := by
  refine statusErr_eq _ _ fun k hk => ?_
  rw [getLsbD_statusDropped _ _ (by omega), if_neg (by omega)]
  simp [statusErr, hk]

/-- The reserved bits of STATUS, [3] and [31:8], are zero. -/
theorem statusReserved_iff (w : Word) :
    w &&& 0xFFFFFF08#32 = 0#32 ↔ ∀ k, k < 32 → (k = 3 ∨ 8 ≤ k) → w.getLsbD k = false := by
  have hm : ∀ k, k < 32 → (0xFFFFFF08#32).getLsbD k = decide (k = 3 ∨ 8 ≤ k) := by decide
  constructor
  · intro h k hk hr
    have := congrArg (fun v => v.getLsbD k) h
    simpa [hm k hk, hr] using this
  · intro h
    refine BitVec.eq_of_getLsbD_eq fun k hk => ?_
    by_cases hr : k = 3 ∨ 8 ≤ k
    · simp [h k hk hr]
    · simp [hm k hk, hr]

theorem errBits_toNat_le (e : ErrCode) : (errBits e).toNat ≤ 5 := by cases e <;> decide

theorem errBits_ne_zero_iff {e : ErrCode} : errBits e ≠ 0#4 ↔ e ≠ .none := by cases e <;> decide

/-- WERR and the completion procedure do not touch each other's bits (10_state.md R26). -/
theorem statusCompleted_dropped (e : ErrCode) (w : Word) :
    statusCompleted e (statusDropped w) = statusDropped (statusCompleted e w) := by
  refine BitVec.eq_of_getLsbD_eq fun k hk => ?_
  rw [getLsbD_statusCompleted _ _ _ hk, getLsbD_statusDropped _ _ hk, getLsbD_statusDropped _ _ hk,
    getLsbD_statusCompleted _ _ _ hk]
  split_ifs <;> first | rfl | omega

end Sys2Proof.Machine
end

