-- ==== Sys2Proof/Laws/Stream.lean ====
section
/-! SUPPORT. The laws of the pure functions of 40_packer.md: lengths, and which bit of the payload each bit of a chunk
and each bit of an unpacked byte is. Out-of-range positions read as zero bits throughout (`List.getD`). -/

namespace Sys2Proof.Machine

/-! ## Lists of blocks of one size -/

theorem length_flatMap_const {α β : Type} (f : α → List β) (c : Nat) (hf : ∀ x, (f x).length = c) (l : List α) :
    (l.flatMap f).length = c * l.length := by
  induction l with
  | nil => simp
  | cons x l ih => simp only [List.flatMap_cons, List.length_append, hf, ih, List.length_cons]; ring

/-- Position `n` of a list of blocks of size `c` is position `n % c` of block `n / c`. -/
theorem getElem?_flatMap_const {α β : Type} (f : α → List β) (c : Nat) (hc : 0 < c) (hf : ∀ x, (f x).length = c)
    (l : List α) : ∀ n, (l.flatMap f)[n]? = l[n / c]?.bind fun x => (f x)[n % c]? := by
  induction l with
  | nil => intro n; simp
  | cons x l ih =>
    intro n
    rw [List.flatMap_cons]
    by_cases h : n < c
    · rw [List.getElem?_append_left (by rw [hf]; exact h), Nat.div_eq_of_lt h, Nat.mod_eq_of_lt h]
      rfl
    · have hn : n = (n - c) + c := by omega
      rw [List.getElem?_append_right (by rw [hf]; omega), hf, ih]
      conv_rhs => rw [hn, Nat.add_div_right _ hc, Nat.add_mod_right]
      rfl

/-! ## ceil_div -/

/-- `ceil_div(a, b)` is the least `q` with `q * b ≥ a` (00_scope.md R11). -/
theorem ceilDiv_le_iff (a b q : Nat) (hb : 0 < b) : ceilDiv a b ≤ q ↔ a ≤ q * b := by
  unfold ceilDiv
  rw [Nat.div_le_iff_le_mul_add_pred hb]
  have := Nat.mul_comm b q
  constructor <;> intro h <;> omega

theorem le_ceilDiv_mul (a b : Nat) (hb : 0 < b) : a ≤ ceilDiv a b * b :=
  (ceilDiv_le_iff a b _ hb).1 le_rfl

theorem usableBits_pos (m : Mode) : 0 < usableBits m := by cases m <;> decide

theorem usableBits_le (m : Mode) : usableBits m ≤ 254 := by cases m <;> decide

/-! ## Big-endian bytes -/

@[simp] theorem length_beBytes32 (v : FieldElement) : (beBytes32 v).length = 32 := by simp [beBytes32]

theorem getElem_beBytes32 (v : FieldElement) (k : Nat) (h : k < (beBytes32 v).length) :
    (beBytes32 v)[k] = v.extractLsb' (8 * (31 - k)) 8 := by simp [beBytes32]

theorem testBit_foldl_bytes (bs : List Byte) : ∀ i,
    (bs.foldl (fun (acc : Nat) (b : Byte) => acc * 256 + b.toNat) 0).testBit i =
      (decide (i < 8 * bs.length) && (bs.getD (bs.length - 1 - i / 8) 0#8).getLsbD (i % 8)) := by
  induction bs using List.reverseRecOn with
  | nil => intro i; simp
  | append_singleton bs b ih =>
    intro i
    generalize hv : bs.foldl (fun (acc : Nat) (b : Byte) => acc * 256 + b.toNat) 0 = v at ih
    have hfold : (bs ++ [b]).foldl (fun (acc : Nat) (b : Byte) => acc * 256 + b.toNat) 0 = 2 ^ 8 * v + b.toNat := by
      simp [hv, Nat.mul_comm]
    rw [hfold, Nat.testBit_two_pow_mul_add _ b.isLt]
    by_cases h : i < 8
    · have h0 : i / 8 = 0 := Nat.div_eq_of_lt h
      have h1 : i < 8 * (bs ++ [b]).length := by simp; omega
      have h2 : i % 8 = i := Nat.mod_eq_of_lt h
      rw [if_pos h, h0, h2, decide_eq_true h1]
      simp [BitVec.getLsbD]
    · have hq : i / 8 = (i - 8) / 8 + 1 := by omega
      have hr : i % 8 = (i - 8) % 8 := by omega
      rw [if_neg h, ih, hq, hr]
      by_cases hl : i - 8 < 8 * bs.length
      · have hl' : i < 8 * (bs ++ [b]).length := by simp; omega
        have hx : (bs ++ [b]).length - 1 - ((i - 8) / 8 + 1) = bs.length - 1 - (i - 8) / 8 := by simp; omega
        rw [decide_eq_true hl, decide_eq_true hl', hx]
        simp only [Bool.true_and, List.getD_eq_getElem?_getD]
        rw [List.getElem?_append_left (by omega)]
      · have hl' : ¬ i < 8 * (bs ++ [b]).length := by simp; omega
        rw [decide_eq_false hl, decide_eq_false hl', Bool.false_and, Bool.false_and]

/-- Bit `i` of the value of 32 bytes is bit `i % 8` of byte `31 - i / 8` (00_scope.md R11). -/
theorem getLsbD_fromBe32 (bs : List Byte) (h : bs.length = 32) (i : Nat) (hi : i < 256) :
    (fromBe32 bs).getLsbD i = (bs.getD (31 - i / 8) 0#8).getLsbD (i % 8) := by
  rw [fromBe32, BitVec.getLsbD_ofNat, testBit_foldl_bytes, h]
  simp [hi]

theorem getLsbD_getD_beBytes32 (v : FieldElement) (k i : Nat) (hk : k < 32) (hi : i < 8) :
    ((beBytes32 v).getD k 0#8).getLsbD i = v.getLsbD (8 * (31 - k) + i) := by
  rw [List.getD_eq_getElem _ _ (by simpa using hk), getElem_beBytes32]
  simp [hi]

@[simp] theorem fromBe32_beBytes32 (v : FieldElement) : fromBe32 (beBytes32 v) = v := by
  refine BitVec.eq_of_getLsbD_eq fun i hi => ?_
  rw [getLsbD_fromBe32 _ (by simp) i hi, getLsbD_getD_beBytes32 _ _ _ (by omega) (by omega)]
  congr 1; omega

theorem beBytes32_fromBe32 (bs : List Byte) (h : bs.length = 32) : beBytes32 (fromBe32 bs) = bs := by
  refine List.ext_getElem (by simp [h]) fun k h1 h2 => ?_
  refine BitVec.eq_of_getLsbD_eq fun i hi => ?_
  have hk : k < 32 := by simpa using h1
  have := getLsbD_getD_beBytes32 (fromBe32 bs) k i hk hi
  rw [List.getD_eq_getElem _ _ h1] at this
  rw [this, getLsbD_fromBe32 bs h _ (by omega)]
  have hq : 31 - (8 * (31 - k) + i) / 8 = k := by omega
  have hr : (8 * (31 - k) + i) % 8 = i := by omega
  rw [hq, hr, List.getD_eq_getElem _ _ h2]

/-! ## Bit streams -/

@[simp] theorem length_bitsOfByte (b : Byte) : (bitsOfByte b).length = 8 := by simp [bitsOfByte]

@[simp] theorem length_bitstream (p : List Byte) : (bitstream p).length = 8 * p.length :=
  length_flatMap_const bitsOfByte 8 length_bitsOfByte p

/-- Bit `n` of a payload's stream is bit `7 - n % 8` of byte `n / 8` (40_packer.md R100). -/
theorem getD_bitstream (p : List Byte) (n : Nat) :
    (bitstream p).getD n false = (p.getD (n / 8) 0#8).getLsbD (7 - n % 8) := by
  rw [List.getD_eq_getElem?_getD, bitstream, getElem?_flatMap_const bitsOfByte 8 (by omega) length_bitsOfByte,
    List.getD_eq_getElem?_getD]
  cases p[n / 8]? with
  | none => simp
  | some b =>
    have : n % 8 < 8 := Nat.mod_lt _ (by omega)
    simp [bitsOfByte, this]

theorem length_padded (p : List Byte) (w : Nat) (hw : 0 < w) :
    (padded p w).length = chunkCount p.length w * w := by
  have := le_ceilDiv_mul (8 * p.length) w hw
  simp only [padded, List.length_append, length_bitstream, List.length_replicate]
  unfold chunkCount
  omega

/-- Padding adds zero bits only (40_packer.md R102). -/
theorem getD_padded (p : List Byte) (w n : Nat) : (padded p w).getD n false = (bitstream p).getD n false := by
  simp only [padded, List.getD_eq_getElem?_getD]
  by_cases h : n < (bitstream p).length
  · rw [List.getElem?_append_left h]
  · rw [List.getElem?_append_right (by omega), List.getElem?_eq_none (l := bitstream p) (by omega)]
    cases hx : (List.replicate (chunkCount p.length w * w - 8 * p.length) false)[n - (bitstream p).length]? with
    | none => rfl
    | some b => simp [List.getElem?_replicate] at hx; simp [hx.2]

/-- Bit `i` of a binary numeral is the digit `i` places from its end. -/
theorem testBit_natOfBits (bits : List Bool) : ∀ i,
    (natOfBits bits).testBit i = (decide (i < bits.length) && bits.getD (bits.length - 1 - i) false) := by
  induction bits using List.reverseRecOn with
  | nil => intro i; simp [natOfBits]
  | append_singleton bits b ih =>
    intro i
    have hfold : natOfBits (bits ++ [b]) = 2 ^ 1 * natOfBits bits + b.toNat := by simp [natOfBits]
    rw [hfold, Nat.testBit_two_pow_mul_add _ (by cases b <;> decide)]
    by_cases h : i < 1
    · have h0 : i = 0 := by omega
      subst h0
      cases b <;> simp
    · rw [if_neg h, ih]
      by_cases hl : i - 1 < bits.length
      · have hx : (bits ++ [b]).length - 1 - i = bits.length - 1 - (i - 1) := by simp; omega
        have hl' : i < (bits ++ [b]).length := by simp; omega
        rw [decide_eq_true hl, decide_eq_true hl', hx]
        simp only [Bool.true_and, List.getD_eq_getElem?_getD]
        rw [List.getElem?_append_left (by omega)]
      · have hl' : ¬ i < (bits ++ [b]).length := by simp; omega
        rw [decide_eq_false hl, decide_eq_false hl', Bool.false_and, Bool.false_and]

theorem natOfBits_lt (bits : List Bool) : natOfBits bits < 2 ^ bits.length := by
  refine Nat.lt_pow_two_of_testBit _ fun i hi => ?_
  rw [testBit_natOfBits]
  simp [Nat.not_lt.2 hi]

/-! ## The chunk extractor (40_packer.md R103) -/

theorem length_window (t : List Bool) (j w : Nat) (h : (j + 1) * w ≤ t.length) :
    ((t.drop (j * w)).take w).length = w := by
  simp only [List.length_take, List.length_drop]
  have : (j + 1) * w = j * w + w := by ring
  omega

theorem extract_lt (t : List Bool) (j w : Nat) : extract t j w < 2 ^ w := by
  refine lt_of_lt_of_le (natOfBits_lt _) (Nat.pow_le_pow_right (by omega) ?_)
  simp

/-- The first bit of window `j` is bit `w - 1` of the value, the last is bit 0. -/
theorem testBit_extract (t : List Bool) (j w i : Nat) (h : (j + 1) * w ≤ t.length) :
    (extract t j w).testBit i = (decide (i < w) && t.getD (j * w + (w - 1 - i)) false) := by
  rw [extract, testBit_natOfBits, length_window t j w h]
  by_cases hi : i < w
  · simp only [hi, decide_true, Bool.true_and, List.getD_eq_getElem?_getD]
    rw [List.getElem?_take, if_pos (by omega), List.getElem?_drop]
  · simp [hi]

/-! ## pack (40_packer.md R104, R106) -/

@[simp] theorem length_pack (p : List Byte) (w : Nat) : (pack p w).length = chunkCount p.length w := by simp [pack]

theorem getElem_pack (p : List Byte) (w j : Nat) (h : j < (pack p w).length) :
    (pack p w)[j] = BitVec.ofNat 256 (extract (padded p w) j w) := by simp [pack]

/-- Bit `i` of chunk `j` is the bit of the payload at stream position `j*w + (w-1-i)`, and zero from bit `w` up. -/
theorem getLsbD_pack (p : List Byte) (w j i : Nat) (hw : 0 < w) (hw' : w ≤ 256) (h : j < (pack p w).length) :
    (pack p w)[j].getLsbD i =
      (decide (i < w) && (p.getD ((j * w + (w - 1 - i)) / 8) 0#8).getLsbD (7 - (j * w + (w - 1 - i)) % 8)) := by
  have hj : j + 1 ≤ chunkCount p.length w := by simpa using h
  have hlen : (j + 1) * w ≤ (padded p w).length := by
    rw [length_padded p w hw]; exact Nat.mul_le_mul_right w hj
  rw [getElem_pack, BitVec.getLsbD_ofNat, testBit_extract _ _ _ _ hlen, getD_padded, getD_bitstream]
  by_cases hi : i < w
  · simp [hi, show i < 256 by omega]
  · simp [hi]

/-- Every chunk is below `2^w` (40_packer.md R104, R107). -/
theorem toNat_pack_lt (p : List Byte) (w j : Nat) (h : j < (pack p w).length) : (pack p w)[j].toNat < 2 ^ w := by
  rw [getElem_pack, BitVec.toNat_ofNat]
  exact lt_of_le_of_lt (Nat.mod_le _ _) (extract_lt _ _ _)

/-! ## unpack (40_packer.md R108) -/

@[simp] theorem length_lowBits (w : Nat) (d : FieldElement) : (lowBits w d).length = w := by simp [lowBits]

theorem length_chunkBits (w : Nat) (cs : List FieldElement) : (cs.flatMap (lowBits w)).length = w * cs.length :=
  length_flatMap_const (lowBits w) w (length_lowBits w) cs

/-- Bit `n` of the concatenated chunks is bit `w - 1 - n % w` of chunk `n / w`. -/
theorem getD_chunkBits (w : Nat) (hw : 0 < w) (cs : List FieldElement) (n : Nat) :
    (cs.flatMap (lowBits w)).getD n false = (cs.getD (n / w) 0#256).getLsbD (w - 1 - n % w) := by
  rw [List.getD_eq_getElem?_getD, getElem?_flatMap_const (lowBits w) w hw (length_lowBits w),
    List.getD_eq_getElem?_getD]
  cases cs[n / w]? with
  | none => simp
  | some d =>
    have : n % w < w := Nat.mod_lt _ hw
    simp [lowBits, this]

theorem bytesOfBits_eq_nil (bits : List Bool) (h : bits.length < 8) : bytesOfBits bits = [] := by
  match bits, h with
  | [], _ | [_], _ | [_, _], _ | [_, _, _], _ | [_, _, _, _], _ | [_, _, _, _, _], _ | [_, _, _, _, _, _], _
  | [_, _, _, _, _, _, _], _ => rfl
  | _ :: _ :: _ :: _ :: _ :: _ :: _ :: _ :: t, h => simp at h; omega

theorem bytesOfBits_cons8 (w t : List Bool) (h : w.length = 8) :
    bytesOfBits (w ++ t) = BitVec.ofNat 8 (natOfBits w) :: bytesOfBits t := by
  match w, h with
  | [_, _, _, _, _, _, _, _], _ => rfl

theorem length_bytesOfBits (n : Nat) : ∀ bits : List Bool, bits.length = 8 * n → (bytesOfBits bits).length = n := by
  induction n with
  | zero => intro bits h; rw [bytesOfBits_eq_nil bits (by omega)]; rfl
  | succ n ih =>
    intro bits h
    rw [← List.take_append_drop 8 bits, bytesOfBits_cons8 _ _ (by simp; omega), List.length_cons,
      ih _ (by simp; omega)]

/-- Bit `7 - k` of byte `i` is stream position `8*i + k`. -/
theorem getLsbD_bytesOfBits (n : Nat) : ∀ (bits : List Bool), bits.length = 8 * n → ∀ i k, k < 8 →
    ((bytesOfBits bits).getD i 0#8).getLsbD (7 - k) = bits.getD (8 * i + k) false := by
  induction n with
  | zero =>
    intro bits h i k _
    have hb : bits = [] := List.length_eq_zero_iff.1 (by omega)
    subst hb
    simp [bytesOfBits]
  | succ n ih =>
    intro bits h i k hk
    have h8 : (bits.take 8).length = 8 := by simp; omega
    conv_lhs => rw [← List.take_append_drop 8 bits, bytesOfBits_cons8 _ _ h8]
    cases i with
    | zero =>
      rw [List.getD_cons_zero, BitVec.getLsbD_ofNat, testBit_natOfBits, h8]
      have h1 : 7 - k < 8 := by omega
      have h2 : 8 - 1 - (7 - k) = k := by omega
      simp only [h1, decide_true, Bool.true_and, h2, List.getD_eq_getElem?_getD, List.getElem?_take, hk, if_true,
        Nat.mul_zero, Nat.zero_add]
    | succ i =>
      rw [List.getD_cons_succ, ih _ (by simp; omega) i k hk]
      simp only [List.getD_eq_getElem?_getD, List.getElem?_drop]
      congr 2; omega

theorem unpack_eq_error_iff (cs : List FieldElement) (w bitlen : Nat) (e : ErrCode) :
    unpack cs w bitlen = .error e ↔ e = .lengthMismatch ∧ bitlen > cs.length * w := by
  unfold unpack
  split <;> simp_all [eq_comm]

theorem unpack_eq_ok (cs : List FieldElement) (w bitlen : Nat) (h : bitlen ≤ cs.length * w) :
    unpack cs w bitlen = .ok (bytesOfBits ((cs.flatMap (lowBits w)).take bitlen)) := by
  unfold unpack
  rw [if_neg (by omega)]

theorem length_take_chunkBits (cs : List FieldElement) (w len : Nat) (h : 8 * len ≤ cs.length * w) :
    ((cs.flatMap (lowBits w)).take (8 * len)).length = 8 * len := by
  rw [List.length_take, length_chunkBits, Nat.mul_comm w]
  omega

theorem length_okBytes_unpack (cs : List FieldElement) (w len : Nat) (h : 8 * len ≤ cs.length * w) :
    (okBytes (unpack cs w (8 * len))).length = len := by
  rw [unpack_eq_ok cs w _ h]
  exact length_bytesOfBits len _ (length_take_chunkBits cs w len h)

/-- Bit `7 - k` of unpacked byte `i` is stream position `8*i + k` of the chunks' low-order bits. -/
theorem getLsbD_unpack (cs : List FieldElement) (w len : Nat) (hw : 0 < w) (h : 8 * len ≤ cs.length * w) (i k : Nat)
    (hi : i < len) (hk : k < 8) :
    ((okBytes (unpack cs w (8 * len))).getD i 0#8).getLsbD (7 - k) =
      (cs.getD ((8 * i + k) / w) 0#256).getLsbD (w - 1 - (8 * i + k) % w) := by
  rw [unpack_eq_ok cs w _ h]
  show ((bytesOfBits _).getD i 0#8).getLsbD (7 - k) = _
  rw [getLsbD_bytesOfBits len _ (length_take_chunkBits cs w len h) i k hk, ← getD_chunkBits w hw]
  simp only [List.getD_eq_getElem?_getD, List.getElem?_take]
  rw [if_pos (by omega)]

/-! ## Numerals and the accumulator -/

theorem natOfBits_append (a b : List Bool) : natOfBits (a ++ b) = natOfBits a * 2 ^ b.length + natOfBits b := by
  induction b using List.reverseRecOn with
  | nil => simp [natOfBits]
  | append_singleton b x ih =>
    rw [← List.append_assoc]
    simp only [natOfBits, List.foldl_append, List.foldl_cons, List.foldl_nil] at ih ⊢
    rw [ih, List.length_append, List.length_singleton, Nat.pow_succ]
    ring

theorem natOfBits_bitsOfByte (b : Byte) : natOfBits (bitsOfByte b) = b.toNat := by
  refine Nat.eq_of_testBit_eq fun i => ?_
  rw [testBit_natOfBits, length_bitsOfByte]
  by_cases h : i < 8
  · have : 8 - 1 - i < (bitsOfByte b).length := by simp; omega
    rw [List.getD_eq_getElem _ _ this]
    simp [bitsOfByte, h, BitVec.getLsbD, show 7 - (7 - i) = i by omega]
  · simp [h]
    exact Nat.testBit_lt_two_pow (lt_of_lt_of_le b.isLt (Nat.pow_le_pow_right (by omega) (by omega)))

theorem bitstream_append_singleton (p : List Byte) (b : Byte) : bitstream (p ++ [b]) = bitstream p ++ bitsOfByte b := by
  simp [bitstream]

/-- Bytes are equal when their stream bits are. -/
theorem byte_eq_of_streamBits {a b : Byte} (h : ∀ k, k < 8 → a.getLsbD (7 - k) = b.getLsbD (7 - k)) : a = b := by
  refine BitVec.eq_of_getLsbD_eq fun k hk => ?_
  have := h (7 - k) (by omega)
  rwa [show 7 - (7 - k) = k by omega] at this

/-- The low bits of a chunk depend on those bits only (40_packer.md R109). -/
theorem lowBits_congr {w : Nat} {a b : FieldElement} (h : ∀ k, k < w → a.getLsbD k = b.getLsbD k) :
    lowBits w a = lowBits w b := by
  refine List.map_congr_left fun k hk => ?_
  have := List.mem_range.1 hk
  exact h _ (by omega)

end Sys2Proof.Machine
end

