-- ==== Sys2Proof/Laws/Framing.lean ====
section
/-! SUPPORT. The laws of the framing functions of 41_assembler.md: lengths, and which chunk each element is. -/

namespace Sys2Proof.Machine

theorem blobCount_pos (n m : Nat) : 0 < blobCount n m := by simp [blobCount]

/-- The blobs hold all the chunks. -/
theorem le_mul_blobCount (n m : Nat) (hn : 0 < n) : m ≤ n * blobCount n m := by
  have h1 := le_ceilDiv_mul m n hn
  have h2 : ceilDiv m n ≤ blobCount n m := le_max_right _ _
  calc m ≤ ceilDiv m n * n := h1
    _ ≤ blobCount n m * n := Nat.mul_le_mul_right n h2
    _ = n * blobCount n m := Nat.mul_comm _ _

@[simp] theorem length_assemble (n : Nat) (cs : List FieldElement) : (assemble n cs).length = blobCount n cs.length := by
  simp [assemble]

/-- Every blob has exactly `N_ELEMENTS` elements (41_assembler.md R149). -/
theorem length_of_mem_assemble (n : Nat) (cs : List FieldElement) (b : Blob) (h : b ∈ assemble n cs) : b.length = n := by
  simp only [assemble, List.mem_map] at h
  obtain ⟨k, -, rfl⟩ := h
  simp

theorem getElem_assemble (n : Nat) (cs : List FieldElement) (b : Nat) (h : b < (assemble n cs).length) :
    (assemble n cs)[b] = (List.range n).map fun i => cs.getD (n * b + i) 0#256 := by simp [assemble]

/-- All elements of all blobs: the chunks, then zero elements. -/
theorem flatten_assemble (n : Nat) (hn : 0 < n) (cs : List FieldElement) :
    (assemble n cs).flatten = (List.range (n * blobCount n cs.length)).map fun e => cs.getD e 0#256 := by
  refine List.ext_getElem? fun e => ?_
  rw [assemble, ← List.flatMap_def, getElem?_flatMap_const _ n hn (by simp)]
  by_cases he : e / n < blobCount n cs.length
  · have hr : e % n < n := Nat.mod_lt _ hn
    have he' : e < n * blobCount n cs.length := by
      rw [Nat.mul_comm]; exact (Nat.div_lt_iff_lt_mul hn).1 he
    simp [he, hr, he', Nat.div_add_mod]
  · have he' : ¬ e < n * blobCount n cs.length := fun h =>
      he ((Nat.div_lt_iff_lt_mul hn).2 (by rw [Nat.mul_comm]; exact h))
    simp [he, he']

theorem length_flatten_assemble (n : Nat) (hn : 0 < n) (cs : List FieldElement) :
    (assemble n cs).flatten.length = n * blobCount n cs.length := by
  simp [flatten_assemble n hn]

/-- The first elements of the blobs are the chunks. -/
theorem take_flatten_assemble (n : Nat) (hn : 0 < n) (cs : List FieldElement) :
    (assemble n cs).flatten.take cs.length = cs := by
  have h := le_mul_blobCount n cs.length hn
  refine List.ext_getElem (by simp [length_flatten_assemble n hn, h]) fun e h1 h2 => ?_
  simp [flatten_assemble n hn, h2]

@[simp] theorem length_blobsOf (n k : Nat) (es : List FieldElement) : (blobsOf n k es).length = k := by simp [blobsOf]

theorem flatten_blobsOf (n k : Nat) (es : List FieldElement) : (blobsOf n k es).flatten = es.take (n * k) := by
  rw [blobsOf, ← List.flatMap_def]
  induction k with
  | zero => simp
  | succ k ih => rw [List.range_succ, List.flatMap_append, ih, Nat.mul_succ, List.take_add]; simp

theorem disassemble_eq_error_iff (n : Nat) (bs : List Blob) (w t : Nat) (e : ErrCode) :
    disassemble n bs w t = .error e ↔ e = .chunkCountMismatch ∧ t > n * bs.length := by
  unfold disassemble
  split <;> simp_all [eq_comm]

theorem disassemble_eq_ok (n : Nat) (bs : List Blob) (w t : Nat) (h : t ≤ n * bs.length) :
    disassemble n bs w t = .ok (bs.flatten.take t) := by
  unfold disassemble
  rw [if_neg (by omega)]

/-- The bits of a payload fit in its chunks. -/
theorem eight_mul_le_chunkCount_mul (len w : Nat) (hw : 0 < w) : 8 * len ≤ chunkCount len w * w :=
  le_ceilDiv_mul _ _ hw

/-- DECODE's composition, where the blobs hold enough elements (41_assembler.md R147). -/
theorem decodeBlobs_eq (n k : Nat) (es : List FieldElement) (w len : Nat)
    (h : chunkCount len w ≤ n * k) :
    decodeBlobs n (blobsOf n k es) w len = unpack (es.take (chunkCount len w)) w (8 * len) := by
  rw [decodeBlobs, disassemble_eq_ok _ _ _ _ (by simpa using h), flatten_blobsOf, List.take_take,
    Nat.min_eq_left h]

end Sys2Proof.Machine
end

