-- ==== Sys2Proof/Laws/Memory.lean ====
section
/-! SUPPORT. The laws of the buffer memory: a read after a write, the canonical form, equality of equal memories. -/

namespace Sys2Proof.Machine

/-! ## Lookup -/

theorem Memory.lookup_filter (p : Nat → Bool) (m : Memory) (x : Nat) :
    List.lookup x (m.filter fun c => p c.1) = if p x then List.lookup x m else none := by
  induction m with
  | nil => simp
  | cons c rest ih =>
    by_cases hc : p c.1
    · rw [List.filter_cons_of_pos (p := fun c : Host.Cell => p c.1) hc, Memory.lookup_cons, Memory.lookup_cons, ih]
      split_ifs <;> simp_all
    · rw [List.filter_cons_of_neg (p := fun c : Host.Cell => p c.1) hc, Memory.lookup_cons, ih]
      split_ifs <;> simp_all

theorem lookup_cellsAt (bs : List Byte) : ∀ (a x : Nat),
    List.lookup x (cellsAt a bs) = if a ≤ x then bs[x - a]? else none := by
  induction bs with
  | nil => intro a x; simp [cellsAt]
  | cons b bs ih =>
    intro a x
    rw [cellsAt, Memory.lookup_cons, ih]
    by_cases h : x = a
    · simp [h]
    · by_cases h' : a ≤ x
      · have h1 : x - a = (x - (a + 1)) + 1 := by omega
        simp only [h, if_false, h', if_true, h1, List.getElem?_cons_succ]
        rw [if_pos (by omega)]
      · simp only [h, h', if_false]
        rw [if_neg (by omega)]

/-- A lookup after a write: the written byte inside the range, the old entry outside. -/
theorem Memory.lookup_write (m : Memory) (a : Nat) (bs : List Byte) (x : Nat) :
    List.lookup x (m.write a bs) = if a ≤ x ∧ x < a + bs.length then bs[x - a]? else List.lookup x m := by
  simp only [Memory.write, List.lookup_append, lookup_cellsAt,
    Memory.lookup_filter (fun k => decide (k < a)), Memory.lookup_filter (fun k => decide (a + bs.length ≤ k)),
    decide_eq_true_eq]
  by_cases h1 : x < a
  · have h2 : ¬ a ≤ x := by omega
    have h3 : ¬ a + bs.length ≤ x := by omega
    simp [h1, h2, h3]
  · by_cases h2 : x < a + bs.length
    · have h3 : a ≤ x := by omega
      have h4 : ¬ a + bs.length ≤ x := by omega
      simp [h1, h2, h3, h4]
    · have h3 : a ≤ x := by omega
      have h4 : a + bs.length ≤ x := by omega
      simp [h1, h2, h3, h4, List.getElem?_eq_none (show bs.length ≤ x - a by omega)]

/-! ## Reads after writes -/

/-- `BUF[x]` after a write: the written byte inside the range, the old byte outside. -/
theorem byteAt_memWrite (a : Nat) (bs : List Byte) (s : State) (x : Nat) :
    (memWrite a bs s).byteAt x = if a ≤ x ∧ x < a + bs.length then bs.getD (x - a) 0#8 else s.byteAt x := by
  simp only [State.byteAt, memWrite_buf, memWrite_bufDraw, Memory.lookup_write]
  split_ifs with h
  · rw [List.getElem?_eq_getElem (by omega), Option.getD_some, List.getD_eq_getElem _ _ (by omega)]
  · rfl

theorem byteAt_memWrite_of_outside (a : Nat) (bs : List Byte) (s : State) (x : Nat)
    (h : x < a ∨ a + bs.length ≤ x) : (memWrite a bs s).byteAt x = s.byteAt x := by
  rw [byteAt_memWrite, if_neg (by omega)]

/-- `BUF[x]` depends only on the bytes written and the draw of the last reset. -/
theorem byteAt_congr {s t : State} (hb : s.buf = t.buf) (hd : s.bufDraw = t.bufDraw) (x : Nat) :
    s.byteAt x = t.byteAt x := by
  simp [State.byteAt, hb, hd]

@[simp] theorem length_memRead (s : State) (a n : Nat) : (memRead s a n).length = n := by simp [memRead]

theorem getElem_memRead (s : State) (a n k : Nat) (h : k < (memRead s a n).length) :
    (memRead s a n)[k] = s.byteAt (a + k) := by simp [memRead]

theorem memRead_congr {s t : State} (a n : Nat) (h : ∀ x, a ≤ x → x < a + n → s.byteAt x = t.byteAt x) :
    memRead s a n = memRead t a n := by
  simp only [memRead]
  refine List.map_congr_left fun k hk => h _ (by omega) ?_
  have := List.mem_range.1 hk
  omega

/-- Reading what was written gives what was written. -/
theorem memRead_memWrite (a : Nat) (bs : List Byte) (s : State) :
    memRead (memWrite a bs s) a bs.length = bs := by
  refine List.ext_getElem (by simp) fun k h1 h2 => ?_
  rw [getElem_memRead, byteAt_memWrite, if_pos (by omega), List.getD_eq_getElem _ _ (by omega)]
  simp

theorem memRead_memWrite_of_disjoint (a : Nat) (bs : List Byte) (s : State) (b n : Nat)
    (h : b + n ≤ a ∨ a + bs.length ≤ b) : memRead (memWrite a bs s) b n = memRead s b n :=
  memRead_congr b n fun x _ _ => byteAt_memWrite_of_outside a bs s x (by omega)

/-! ## The canonical form -/

theorem mem_cellsAt (bs : List Byte) : ∀ (a : Nat), ∀ c ∈ cellsAt a bs, a ≤ c.1 ∧ c.1 < a + bs.length := by
  induction bs with
  | nil => intro a c hc; simp [cellsAt] at hc
  | cons b bs ih =>
    intro a c hc
    rcases List.mem_cons.1 hc with rfl | hc
    · simp
    · have := ih (a + 1) c hc
      simp only [List.length_cons]
      omega

theorem cellsAt_wf (bs : List Byte) : ∀ a, Memory.wf (cellsAt a bs) := by
  induction bs with
  | nil => intro a; exact List.Pairwise.nil
  | cons b bs ih =>
    intro a
    refine List.pairwise_cons.2 ⟨fun c hc => ?_, ih (a + 1)⟩
    have := mem_cellsAt bs (a + 1) c hc
    show a < c.1
    omega

/-- Every entry after a write is an old one or lies in the written range. -/
theorem Memory.mem_write {m : Memory} {a : Nat} {bs : List Byte} {c : Host.Cell} (h : c ∈ m.write a bs) :
    c ∈ m ∨ (a ≤ c.1 ∧ c.1 < a + bs.length) := by
  simp only [Memory.write, List.mem_append, List.mem_filter] at h
  rcases h with (h | h) | h
  · exact .inl h.1
  · exact .inr (mem_cellsAt bs a c h)
  · exact .inl h.1

/-- A write keeps the canonical form. -/
theorem Memory.write_wf {m : Memory} (hm : m.wf) (a : Nat) (bs : List Byte) : (m.write a bs).wf := by
  refine List.pairwise_append.2 ⟨List.pairwise_append.2 ⟨hm.filter _, cellsAt_wf bs a, ?_⟩, hm.filter _, ?_⟩
  · intro c hc d hd
    have h1 := (List.mem_filter.1 hc).2
    have h2 := mem_cellsAt bs a d hd
    simp only [decide_eq_true_eq] at h1
    omega
  · intro c hc d hd
    have h2 := (List.mem_filter.1 hd).2
    simp only [decide_eq_true_eq] at h2
    rcases List.mem_append.1 hc with hc | hc
    · have h1 := (List.mem_filter.1 hc).2
      simp only [decide_eq_true_eq] at h1
      omega
    · have h1 := mem_cellsAt bs a c hc
      omega

/-- Equal memories in canonical form are equal data. -/
theorem Memory.ext_of_lookup {m m' : Memory} (hm : m.wf) (hm' : m'.wf)
    (h : ∀ x, List.lookup x m = List.lookup x m') : m = m' := by
  induction m generalizing m' with
  | nil =>
    cases m' with
    | nil => rfl
    | cons d rest' => have := h d.1; simp [Memory.lookup_cons] at this
  | cons c rest ih =>
    cases m' with
    | nil => have := h c.1; simp [Memory.lookup_cons] at this
    | cons d rest' =>
      have hc := List.pairwise_cons.1 hm
      have hd := List.pairwise_cons.1 hm'
      have hkey : c.1 = d.1 := by
        rcases Nat.lt_trichotomy c.1 d.1 with hlt | heq | hgt
        · have := h c.1
          rw [Memory.lookup_cons, if_pos rfl, Memory.lookup_cons, if_neg (by omega),
            Memory.lookup_eq_none_of_lt rest' c.1 fun e he => hlt.trans (hd.1 e he)] at this
          cases this
        · exact heq
        · have := h d.1
          rw [Memory.lookup_cons, if_neg (by omega), Memory.lookup_cons, if_pos rfl,
            Memory.lookup_eq_none_of_lt rest d.1 fun e he => hgt.trans (hc.1 e he)] at this
          cases this
      have hval : c.2 = d.2 := by
        have := h c.1
        rw [Memory.lookup_cons, if_pos rfl, Memory.lookup_cons, if_pos hkey] at this
        exact Option.some.inj this
      have hcd : c = d := Prod.ext hkey hval
      subst hcd
      refine congrArg _ (ih hc.2 hd.2 fun x => ?_)
      have := h x
      rw [Memory.lookup_cons, Memory.lookup_cons] at this
      by_cases hx : x = c.1
      · subst hx
        rw [Memory.lookup_eq_none_of_lt rest c.1 hc.1, Memory.lookup_eq_none_of_lt rest' c.1 hd.1]
      · simpa [hx] using this

/-! ## Bytes after the other updates -/

@[simp] theorem byteAt_complete (e : ErrCode) (s : State) (x : Nat) : (complete e s).byteAt x = s.byteAt x := rfl
@[simp] theorem byteAt_accept (v : Word) (s : State) (x : Nat) : (accept v s).byteAt x = s.byteAt x := rfl
@[simp] theorem byteAt_useTurn (s : State) (x : Nat) : (useTurn s).byteAt x = s.byteAt x := rfl
@[simp] theorem byteAt_loadCommand (v : Word) (s : State) (x : Nat) : (loadCommand v s).byteAt x = s.byteAt x := rfl
@[simp] theorem byteAt_observeSlot (k : BitVec 4) (s : State) (x : Nat) : (observeSlot k s).byteAt x = s.byteAt x := rfl
@[simp] theorem byteAt_observeByte (a : Nat) (s : State) (x : Nat) : (observeByte a s).byteAt x = s.byteAt x := rfl

@[simp] theorem length_drawRange (k b : Nat) (r : Range) : (drawRange k b r).length = min (r.base + r.size) b - r.base := by
  simp [drawRange]

/-- Settling a broken contract changes no byte outside the two ranges. -/
theorem byteAt_settleHazard_of_outside (src dst : Range) (s : State) (x : Nat) (hs : src.has x = false)
    (hd : dst.has x = false) : (settleHazard src dst s).byteAt x = s.byteAt x := by
  simp only [Range.has, decide_eq_false_iff_not] at hs hd
  unfold settleHazard
  split
  · show (memWrite dst.base _ (memWrite src.base _ s)).byteAt x = _
    rw [byteAt_memWrite_of_outside, byteAt_memWrite_of_outside]
    · simp only [length_drawRange]; omega
    · simp only [length_drawRange]; omega
  · rfl

/-- Settling keeps the canonical form. -/
theorem settleHazard_buf_wf (src dst : Range) (s : State) (h : s.buf.wf) : (settleHazard src dst s).buf.wf := by
  unfold settleHazard
  split
  · exact Memory.write_wf (Memory.write_wf h _ _) _ _
  · exact h

/-- Settling stores only bytes that exist. -/
theorem settleHazard_buf_bound (src dst : Range) (s : State) (h : ∀ c ∈ s.buf, c.1 < s.cfg.bufBytes) :
    ∀ c ∈ (settleHazard src dst s).buf, c.1 < s.cfg.bufBytes := by
  unfold settleHazard
  split
  · intro c hc
    rcases Memory.mem_write hc with hc | hc
    · rcases Memory.mem_write hc with hc | hc
      · exact h c hc
      · simp only [length_drawRange] at hc; omega
    · simp only [length_drawRange] at hc; omega
  · exact h

end Sys2Proof.Machine
end

