-- ==== Sys2Proof/Laws/Ops.lean ====
section
/-! SUPPORT. What a command can do: one lemma for the frame of every command, one for its checks, one for the bytes it
writes. -/

namespace Sys2Proof.Machine

/-! ## The frame of a command -/

/-- The effect of a command that passed its checks. -/
def effectOf : Command → Mode → Latch → State → State
  | .pack => packEffect
  | .unpack => unpackEffect
  | .assemble => assembleEffect
  | .disassemble => disassembleEffect
  | .encode => encodeEffect
  | .decode => decodeEffect

/-- Every arm of `exec` is the command frame around the effect of its command. -/
theorem exec_eq_runCommand (i : Instr) (s : State) :
    exec i s = runCommand (commandOf i) (modeOf i) (effectOf (commandOf i) (modeOf i)) s := by
  cases i <;> rfl

theorem exec_of_latch (i : Instr) (s : State) (l : Latch) (h : s.latch = some l) :
    exec i s = .next (complete (commandError (commandOf i) (modeOf i) s.cfg l)
      (settleHazard (srcRange (commandOf i) s.cfg l) (dstRange (commandOf i) (modeOf i) s.cfg l)
        (if commandError (commandOf i) (modeOf i) s.cfg l = .none then effectOf (commandOf i) (modeOf i) l s else s))) := by
  rw [exec_eq_runCommand]
  simp [runCommand, h]

theorem runCommand_of_no_latch (c : Command) (m : Mode) (f : Latch → State → State) (s : State)
    (h : s.latch = none) : runCommand c m f s = .refused .latchInvalid := by
  simp [runCommand, h]

/-- All that `exec` can do when it answers a next state. -/
theorem exec_cases {i : Instr} {s t : State} (h : exec i s = .next t) :
    ∃ l, s.latch = some l ∧
      t = complete (commandError (commandOf i) (modeOf i) s.cfg l)
        (settleHazard (srcRange (commandOf i) s.cfg l) (dstRange (commandOf i) (modeOf i) s.cfg l)
          (if commandError (commandOf i) (modeOf i) s.cfg l = .none then effectOf (commandOf i) (modeOf i) l s
            else s)) := by
  cases hl : s.latch with
  | none => rw [exec_eq_runCommand, runCommand_of_no_latch _ _ _ _ hl] at h; cases h
  | some l =>
    rw [exec_of_latch i s l hl] at h
    exact ⟨l, rfl, by injection h with h; exact h.symm⟩

/-- A command that passes its checks and whose host kept the contract. -/
theorem exec_of_success (i : Instr) (s : State) (l : Latch) (hl : s.latch = some l) (hh : s.hazard = false)
    (he : commandError (commandOf i) (modeOf i) s.cfg l = .none) :
    exec i s = .next (complete .none (effectOf (commandOf i) (modeOf i) l s)) := by
  rw [exec_of_latch i s l hl, he, if_pos rfl, settleHazard_of_not_hazard]
  cases hc : commandOf i <;> simpa [effectOf] using hh

/-- A command that fails a check and whose host kept the contract. -/
theorem exec_of_failure (i : Instr) (s : State) (l : Latch) (hl : s.latch = some l) (hh : s.hazard = false)
    (he : commandError (commandOf i) (modeOf i) s.cfg l ≠ .none) :
    exec i s = .next (complete (commandError (commandOf i) (modeOf i) s.cfg l) s) := by
  rw [exec_of_latch i s l hl, if_neg he, settleHazard_of_not_hazard _ _ _ hh]

/-! ## The checks (60_exceptions.md R188) -/

theorem inBounds_iff (r : Range) (b : Nat) : r.inBounds b = true ↔ r.base + r.size ≤ b := by simp [Range.inBounds]

theorem overlaps_iff (s d : Range) : s.overlaps d = true ↔
    0 < s.size ∧ 0 < d.size ∧ s.base < d.base + d.size ∧ d.base < s.base + s.size := by simp [Range.overlaps]

theorem has_iff (r : Range) (a : Nat) : r.has a = true ↔ r.base ≤ a ∧ a < r.base + r.size := by simp [Range.has]

/-- A command succeeds exactly when no check fails. -/
theorem commandError_eq_none_iff (c : Command) (m : Mode) (cfg : Config) (l : Latch) :
    commandError c m cfg l = .none ↔
      valueError c m cfg l = .none ∧ l.src.toNat + srcSize c cfg l ≤ cfg.bufBytes ∧
        l.dst.toNat + dstSize c m cfg l ≤ cfg.bufBytes ∧
        ¬ (0 < srcSize c cfg l ∧ 0 < dstSize c m cfg l ∧ l.src.toNat < l.dst.toNat + dstSize c m cfg l ∧
          l.dst.toNat < l.src.toNat + srcSize c cfg l) := by
  have ho := overlaps_iff (srcRange c cfg l) (dstRange c m cfg l)
  have h1 := inBounds_iff (srcRange c cfg l) cfg.bufBytes
  have h2 := inBounds_iff (dstRange c m cfg l) cfg.bufBytes
  simp only [srcRange, dstRange] at ho h1 h2
  rw [← h1, ← h2, ← ho]
  unfold commandError
  simp only [srcRange, dstRange]
  by_cases hv : valueError c m cfg l = .none
  · by_cases hb1 : Range.inBounds ⟨l.src.toNat, srcSize c cfg l⟩ cfg.bufBytes = true <;>
    by_cases hb2 : Range.inBounds ⟨l.dst.toNat, dstSize c m cfg l⟩ cfg.bufBytes = true <;>
    by_cases hx : Range.overlaps ⟨l.src.toNat, srcSize c cfg l⟩ ⟨l.dst.toNat, dstSize c m cfg l⟩ = true <;>
    simp [hv, hb1, hb2, hx]
  · simp [hv]

theorem valueError_unpack_none_iff (m : Mode) (cfg : Config) (l : Latch) :
    valueError .unpack m cfg l = .none ↔ 8 * l.len.toNat ≤ l.count.toNat * usableBits m := by
  simp only [valueError]
  split <;> simp <;> omega

theorem valueError_disassemble_none_iff (m : Mode) (cfg : Config) (l : Latch) :
    valueError .disassemble m cfg l = .none ↔ l.count.toNat ≤ cfg.nElements * l.nblobs.toNat := by
  simp only [valueError]
  split <;> simp <;> omega

theorem valueError_decode_none_iff (m : Mode) (cfg : Config) (l : Latch) :
    valueError .decode m cfg l = .none ↔ chunkCount l.len.toNat (usableBits m) ≤ cfg.nElements * l.nblobs.toNat := by
  simp only [valueError]
  split <;> simp <;> omega

/-! ## The bytes a command writes -/

@[simp] theorem length_elementBytes (es : List FieldElement) : (elementBytes es).length = 32 * es.length :=
  length_flatMap_const beBytes32 32 length_beBytes32 es

@[simp] theorem length_loadElements (s : State) (a k : Nat) : (loadElements s a k).length = k := by simp [loadElements]

/-- Writing the bytes of elements and reading elements gives the elements. -/
theorem elementsOf_elementBytes (es : List FieldElement) : elementsOf es.length (elementBytes es) = es := by
  induction es with
  | nil => rfl
  | cons e es ih =>
    rw [List.length_cons, elementsOf, elementBytes, List.flatMap_cons, List.take_left' (length_beBytes32 e),
      List.drop_left' (length_beBytes32 e), fromBe32_beBytes32]
    exact congrArg _ ih

theorem loadElements_of_memRead (s : State) (a : Nat) (es : List FieldElement)
    (h : memRead s a (32 * es.length) = elementBytes es) : loadElements s a es.length = es := by
  rw [← elementsOf_memRead, h, elementsOf_elementBytes]

theorem elementBytes_loadElements (s : State) (a k : Nat) :
    elementBytes (loadElements s a k) = memRead s a (32 * k) := by
  rw [← elementsOf_memRead]
  induction k generalizing a with
  | zero => rfl
  | succ k ih =>
    have h32 : 32 * (k + 1) = 32 + 32 * k := by omega
    rw [h32, memRead_append, elementsOf, List.take_left' (length_memRead _ _ _), List.drop_left' (length_memRead _ _ _),
      elementBytes, List.flatMap_cons, beBytes32_fromBe32 _ (length_memRead _ _ _)]
    exact congrArg _ (ih (a + 32))

/-- The bytes a successful command leaves in its destination range. -/
def resultBytes (c : Command) (m : Mode) (l : Latch) (s : State) : List Byte :=
  match c with
  | .pack => elementBytes (pack (memRead s l.src.toNat l.len.toNat) (usableBits m))
  | .unpack =>
    okBytes (unpack (loadElements s l.src.toNat l.count.toNat) (usableBits m) (8 * l.len.toNat))
  | .assemble =>
    memRead s l.src.toNat (srcSize .assemble s.cfg l) ++
      List.replicate (dstSize .assemble m s.cfg l - srcSize .assemble s.cfg l) 0#8
  | .disassemble => (memRead s l.src.toNat (srcSize .disassemble s.cfg l)).take (dstSize .disassemble m s.cfg l)
  | .encode =>
    elementBytes (encodePayload s.cfg.nElements (memRead s l.src.toNat l.len.toNat) (usableBits m)).flatten
  | .decode =>
    okBytes (decodeBlobs s.cfg.nElements
      (blobsOf s.cfg.nElements l.nblobs.toNat (loadElements s l.src.toNat (s.cfg.nElements * l.nblobs.toNat)))
      (usableBits m) l.len.toNat)

/-- A successful command fills exactly its destination range (20_memory.md R63). -/
theorem length_resultBytes (c : Command) (m : Mode) (l : Latch) (s : State) (hn : 0 < s.cfg.nElements)
    (h : valueError c m s.cfg l = .none) : (resultBytes c m l s).length = dstSize c m s.cfg l := by
  cases c with
  | pack => simp [resultBytes, dstSize]
  | unpack =>
    exact length_okBytes_unpack _ _ _ (by simpa using (valueError_unpack_none_iff m s.cfg l).1 h)
  | assemble =>
    have := le_mul_blobCount s.cfg.nElements l.count.toNat hn
    simp only [resultBytes, List.length_append, length_memRead, List.length_replicate, srcSize, dstSize, Nat.mul_assoc]
    omega
  | disassemble =>
    have := (valueError_disassemble_none_iff m s.cfg l).1 h
    simp only [resultBytes, List.length_take, length_memRead, srcSize, dstSize, Nat.mul_assoc]
    omega
  | encode =>
    simp only [resultBytes, length_elementBytes, encodePayload, length_flatten_assemble _ hn, length_pack, length_memRead,
      dstSize, Nat.mul_assoc]
  | decode =>
    have hc := (valueError_decode_none_iff m s.cfg l).1 h
    rw [resultBytes, decodeBlobs_eq _ _ _ _ _ hc]
    refine length_okBytes_unpack _ _ _ ?_
    rw [List.length_take, length_loadElements, Nat.min_eq_left hc]
    exact eight_mul_le_chunkCount_mul _ _ (usableBits_pos m)

/-- After a successful command each byte of BUF is a result byte in the destination range and the old byte elsewhere. -/
theorem byteAt_effectOf (c : Command) (m : Mode) (l : Latch) (s : State) (hn : 0 < s.cfg.nElements)
    (h : valueError c m s.cfg l = .none) (x : Nat) :
    (effectOf c m l s).byteAt x =
      if l.dst.toNat ≤ x ∧ x < l.dst.toNat + dstSize c m s.cfg l then
        (resultBytes c m l s).getD (x - l.dst.toNat) 0#8
      else s.byteAt x := by
  have hlen := length_resultBytes c m l s hn h
  rw [← hlen]
  cases c with
  | assemble =>
    show (memWrite _ _ (memWrite _ _ s)).byteAt x = _
    rw [byteAt_memWrite, byteAt_memWrite]
    simp only [resultBytes, length_memRead, List.length_replicate, List.length_append, List.getD_eq_getElem?_getD]
    generalize srcSize .assemble s.cfg l = n1
    generalize dstSize .assemble m s.cfg l - n1 = n2
    by_cases h1 : l.dst.toNat ≤ x ∧ x < l.dst.toNat + n1
    · rw [if_neg (by omega), if_pos h1, if_pos (by omega), List.getElem?_append_left (by simp; omega)]
    · by_cases h2 : l.dst.toNat + n1 ≤ x ∧ x < l.dst.toNat + n1 + n2
      · rw [if_pos h2, if_pos (by omega), List.getElem?_append_right (by simp; omega), length_memRead]
        congr 2; omega
      · rw [if_neg h2, if_neg h1, if_neg (by omega)]
  | _ => exact byteAt_memWrite _ _ s x

theorem memRead_effectOf (c : Command) (m : Mode) (l : Latch) (s : State) (hn : 0 < s.cfg.nElements)
    (h : valueError c m s.cfg l = .none) :
    memRead (effectOf c m l s) l.dst.toNat (dstSize c m s.cfg l) = resultBytes c m l s := by
  have hlen := length_resultBytes c m l s hn h
  refine List.ext_getElem (by simp [hlen]) fun k h1 h2 => ?_
  have hk : k < dstSize c m s.cfg l := by simpa using h1
  rw [getElem_memRead, byteAt_effectOf c m l s hn h, if_pos (by omega), Nat.add_sub_cancel_left,
    List.getD_eq_getElem _ _ h2]

/-- A successful command keeps the canonical form. -/
theorem effectOf_buf_wf (c : Command) (m : Mode) (l : Latch) (s : State) (h : s.buf.wf) :
    (effectOf c m l s).buf.wf := by
  cases c with
  | assemble => exact Memory.write_wf (Memory.write_wf h _ _) _ _
  | _ => exact Memory.write_wf h _ _

/-- Every entry after a successful command is an old one or lies in the destination range. -/
theorem mem_effectOf_buf (c : Command) (m : Mode) (l : Latch) (s : State) (hn : 0 < s.cfg.nElements)
    (h : valueError c m s.cfg l = .none) (x : Host.Cell) (hx : x ∈ (effectOf c m l s).buf) :
    x ∈ s.buf ∨ (l.dst.toNat ≤ x.1 ∧ x.1 < l.dst.toNat + dstSize c m s.cfg l) := by
  have hlen := length_resultBytes c m l s hn h
  cases c with
  | assemble =>
    simp only [resultBytes, List.length_append, length_memRead, List.length_replicate] at hlen
    rcases Memory.mem_write hx with hx | hx
    · rcases Memory.mem_write hx with hx | hx
      · exact .inl hx
      · rw [length_memRead] at hx; exact .inr (by omega)
    · rw [List.length_replicate] at hx; exact .inr (by omega)
  | _ =>
    rcases Memory.mem_write hx with hx | hx
    · exact .inl hx
    · refine .inr ⟨hx.1, ?_⟩
      rw [← hlen]
      exact hx.2

/-! ## What the effects and the commands leave alone -/

/-- An effect writes BUF, COUNT, NBLOBS and OUTLEN and nothing else. -/
theorem effectOf_frame (c : Command) (m : Mode) (l : Latch) (s : State) :
    effectOf c m l s = { s with
      buf := (effectOf c m l s).buf, count := (effectOf c m l s).count, nblobs := (effectOf c m l s).nblobs
      outlen := (effectOf c m l s).outlen } := by cases c <;> rfl

theorem effectOf_hazard (c : Command) (m : Mode) (l : Latch) (s : State) (b : Bool) :
    effectOf c m l { s with hazard := b } = { effectOf c m l s with hazard := b } := by cases c <;> rfl

theorem effectOf_status (c : Command) (m : Mode) (l : Latch) (s : State) (w : Word) :
    effectOf c m l { s with status := w } = { effectOf c m l s with status := w } := by cases c <;> rfl

theorem effectOf_modulus (c : Command) (m : Mode) (l : Latch) (s : State) (q : Nat) :
    effectOf c m l { s with cfg := { s.cfg with modulus := q } } =
      { effectOf c m l s with cfg := { s.cfg with modulus := q } } := by cases c <;> rfl

theorem effectOf_buf (c : Command) (m : Mode) (l : Latch) (s : State) (b : Memory) (d : Nat) :
    effectOf c m l { s with buf := b, bufDraw := d } =
      { effectOf c m l s with buf := (effectOf c m l { s with buf := b, bufDraw := d }).buf, bufDraw := d } := by
  cases c <;> rfl

theorem commandError_modulus (c : Command) (m : Mode) (cfg : Config) (l : Latch) (q : Nat) :
    commandError c m { cfg with modulus := q } l = commandError c m cfg l := by cases c <;> rfl

/-- Everything a command may write, and that it takes no draw back. -/
theorem exec_frame {i : Instr} {s t : State} (h : exec i s = .next t) :
    t = { s with
      buf := t.buf, count := t.count, nblobs := t.nblobs, outlen := t.outlen, status := t.status, latch := none
      hazard := false, draws := t.draws } ∧ s.draws ≤ t.draws := by
  obtain ⟨l, hl, rfl⟩ := exec_cases h
  unfold settleHazard
  split_ifs <;>
    first
      | (rw [effectOf_frame]; exact ⟨rfl, by first | exact Nat.le_refl _ | exact Nat.le_succ _⟩)
      | exact ⟨rfl, by first | exact Nat.le_refl _ | exact Nat.le_succ _⟩

/-- A command that ends with code 0 passed its checks, and its effect is the state. -/
theorem success_of_err {i : Instr} {s t : State} {l : Latch} (hl : s.latch = some l) (hh : s.hazard = false)
    (h : exec i s = .next t) (he : statusErr t.status = 0#4) :
    commandError (commandOf i) (modeOf i) s.cfg l = .none ∧
      t = complete .none (effectOf (commandOf i) (modeOf i) l s) := by
  by_cases hc : commandError (commandOf i) (modeOf i) s.cfg l = .none
  · refine ⟨hc, ?_⟩
    rw [exec_of_success i s l hl hh hc] at h
    injection h with h
    exact h.symm
  · rw [exec_of_failure i s l hl hh hc] at h
    injection h with h
    subst h
    simp only [complete_status, statusErr_completed] at he
    exact absurd he (errBits_ne_zero_iff.2 hc)

@[simp] theorem memRead_complete (e : ErrCode) (s : State) (a n : Nat) :
    memRead (complete e s) a n = memRead s a n := rfl

theorem loadElements_eq_of_memRead {t : State} {a n : Nat} {es : List FieldElement} (hlen : es.length = n)
    (h : memRead t a (32 * n) = elementBytes es) : loadElements t a n = es := by
  subst hlen
  exact loadElements_of_memRead t a es h

theorem take_elementBytes (es : List FieldElement) : ∀ k,
    (elementBytes es).take (32 * k) = elementBytes (es.take k) := by
  induction es with
  | nil => intro k; simp [elementBytes]
  | cons e es ih =>
    intro k
    cases k with
    | zero => rfl
    | succ k =>
      have h32 : 32 * (k + 1) = 32 + 32 * k := by omega
      rw [h32, List.take_succ_cons]
      show (beBytes32 e ++ elementBytes es).take (32 + 32 * k) = beBytes32 e ++ elementBytes (es.take k)
      rw [List.take_append, List.take_of_length_le (by simp), length_beBytes32, Nat.add_sub_cancel_left, ih]

theorem elementBytes_append (es fs : List FieldElement) :
    elementBytes (es ++ fs) = elementBytes es ++ elementBytes fs := by simp [elementBytes]

/-- Zero elements are zero bytes (41_assembler.md R141). -/
theorem elementBytes_replicate_zero (r : Nat) :
    elementBytes (List.replicate r 0#256) = List.replicate (32 * r) 0#8 := by
  have h0 : beBytes32 0#256 = List.replicate 32 0#8 := by decide
  induction r with
  | zero => rfl
  | succ r ih =>
    rw [List.replicate_succ, Nat.mul_succ, Nat.add_comm, List.replicate_add, ← ih, ← h0]
    rfl

/-- A result depends on the source range only. -/
theorem resultBytes_congr (c : Command) (m : Mode) (l : Latch) (s s' : State) (hc : s'.cfg = s.cfg)
    (h : ∀ x, l.src.toNat ≤ x → x < l.src.toNat + srcSize c s.cfg l → s'.byteAt x = s.byteAt x) :
    resultBytes c m l s' = resultBytes c m l s := by
  have hm : ∀ k, k ≤ srcSize c s.cfg l → memRead s' l.src.toNat k = memRead s l.src.toNat k :=
    fun k hk => memRead_congr _ _ fun x h1 h2 => h x h1 (by omega)
  have hl : ∀ k, 32 * k ≤ srcSize c s.cfg l → loadElements s' l.src.toNat k = loadElements s l.src.toNat k := by
    intro k hk
    rw [← elementsOf_memRead, ← elementsOf_memRead, hm _ hk]
  cases c
  case unpack => simp only [resultBytes]; rw [hl _ (by simp [srcSize])]
  case decode => simp only [resultBytes, hc]; rw [hl _ (by simp [srcSize, Nat.mul_assoc])]
  all_goals simp only [resultBytes, hc]; rw [hm _ (by simp [srcSize])]

/-- `BUF[x]` after a broken contract is settled. -/
theorem byteAt_settleHazard (a b : Range) (u : State) (x : Nat) :
    (settleHazard a b u).byteAt x =
      if u.hazard = true ∧ b.base ≤ x ∧ x < b.base + (drawRange u.draws u.cfg.bufBytes b).length then
        (drawRange u.draws u.cfg.bufBytes b).getD (x - b.base) 0#8
      else if u.hazard = true ∧ a.base ≤ x ∧ x < a.base + (drawRange u.draws u.cfg.bufBytes a).length then
        (drawRange u.draws u.cfg.bufBytes a).getD (x - a.base) 0#8
      else u.byteAt x := by
  unfold settleHazard
  by_cases hz : u.hazard = true
  · simp only [hz, if_true, true_and]
    show (memWrite _ _ (memWrite _ _ u)).byteAt x = _
    rw [byteAt_memWrite, byteAt_memWrite]
  · simp [hz]

end Sys2Proof.Machine
end

