-- ==== Sys2Proof/Laws/PerInstr.lean ====
section
/-! SUPPORT. The family `EncodeLegal`: one lemma per command about the word it is encoded as. -/

namespace Sys2Proof.Laws.EncodeLegal

/-- The word of a command is legal: RSV is zero, OP is 1 to 6 and numbers the command, and MODE is the command's mode
(30_encoding.md R81 to R84). -/
def Statement (i : Instr) : Prop :=
  legalWord (encode i) ∧ wordRsv (encode i) = 0#27 ∧
    (wordOp (encode i) = match Machine.commandOf i with
      | .pack => 1#4 | .unpack => 2#4 | .assemble => 3#4 | .disassemble => 4#4 | .encode => 5#4 | .decode => 6#4) ∧
    wordMode (encode i) = match Machine.modeOf i with | .tight => 0#1 | .naive => 1#1

theorem packT : Statement .packT := by unfold Statement; decide
theorem packN : Statement .packN := by unfold Statement; decide
theorem unpackT : Statement .unpackT := by unfold Statement; decide
theorem unpackN : Statement .unpackN := by unfold Statement; decide
theorem assembleT : Statement .assembleT := by unfold Statement; decide
theorem assembleN : Statement .assembleN := by unfold Statement; decide
theorem disassembleT : Statement .disassembleT := by unfold Statement; decide
theorem disassembleN : Statement .disassembleN := by unfold Statement; decide
theorem encodeT : Statement .encodeT := by unfold Statement; decide
theorem encodeN : Statement .encodeN := by unfold Statement; decide
theorem decodeT : Statement .decodeT := by unfold Statement; decide
theorem decodeN : Statement .decodeN := by unfold Statement; decide

end Sys2Proof.Laws.EncodeLegal
end

