-- ==== Sys2Proof/Laws/Step.lean ====
section
/-! SUPPORT. What the ports, the engine and a step can do: one lemma per case. -/

namespace Sys2Proof.Machine

/-! ## The register port -/

theorem writeSlot_of_reset (k : BitVec 4) (v : Word) (s : State) (h : s.resetLine = true) : writeSlot k v s = s := by
  simp [writeSlot, h]

theorem writeSlot_of_busy (k : BitVec 4) (v : Word) (s : State) (hr : s.resetLine = false) (hb : s.busy = true) :
    writeSlot k v s = { s with status := statusDropped s.status } := by simp [writeSlot, hr, hb]

theorem writeSlot_of_idle (k : BitVec 4) (v : Word) (s : State) (hr : s.resetLine = false) (hb : s.busy = false) :
    writeSlot k v s = writeSlotIdle k v s := by simp [writeSlot, hr, hb]

/-- All that an idle register write can do (10_state.md R37). -/
theorem writeSlotIdle_cases (k : BitVec 4) (v : Word) (s : State) :
    (k = 0#4 ∧ writeSlotIdle k v s = accept v s) ∨
    (k = 2#4 ∧ writeSlotIdle k v s = { s with src := v }) ∨
    (k = 3#4 ∧ writeSlotIdle k v s = { s with dst := v }) ∨
    (k = 4#4 ∧ writeSlotIdle k v s = { s with len := v }) ∨
    (k = 5#4 ∧ writeSlotIdle k v s = { s with count := v }) ∨
    (k = 6#4 ∧ writeSlotIdle k v s = { s with nblobs := v }) ∨
    ((k = 1#4 ∨ 7 ≤ k.toNat) ∧ writeSlotIdle k v s = s) := by
  have hk : k = BitVec.ofNat 4 k.toNat := by simp
  have hlt : k.toNat < 16 := k.isLt
  generalize k.toNat = n at hk hlt
  subst hk
  interval_cases n <;> simp [writeSlotIdle]

theorem readSlot_of_reserved (s : State) (k : BitVec 4) (h : 10 ≤ k.toNat) : readSlot s k = 0#32 := by
  unfold readSlot
  split <;> first | omega | rfl

/-! ## The buffer port -/

theorem hostWriteByte_of_lt (a : Nat) (v : Byte) (s : State) (h : a < s.cfg.bufBytes) :
    hostWriteByte a v s = { memWrite a [v] s with hazard := s.hazard || (s.busy && inRunningRanges s a) } := by
  simp [hostWriteByte, h]

theorem hostWriteByte_of_ge (a : Nat) (v : Byte) (s : State) (h : s.cfg.bufBytes ≤ a) : hostWriteByte a v s = s := by
  simp [hostWriteByte, Nat.not_lt.2 h]

theorem inRunningRanges_iff (s : State) (l : Latch) (i : Instr) (a : Nat) (hl : s.latch = some l)
    (hd : decodeLatch l = .ok i) :
    inRunningRanges s a = true ↔
      (l.src.toNat ≤ a ∧ a < l.src.toNat + srcSize (commandOf i) s.cfg l) ∨
        (l.dst.toNat ≤ a ∧ a < l.dst.toNat + dstSize (commandOf i) (modeOf i) s.cfg l) := by
  simp [inRunningRanges, hl, hd, has_iff, srcRange, dstRange]

theorem inRunningDst_iff (s : State) (l : Latch) (i : Instr) (a : Nat) (hl : s.latch = some l)
    (hd : decodeLatch l = .ok i) :
    inRunningDst s a = true ↔
      l.dst.toNat ≤ a ∧ a < l.dst.toNat + dstSize (commandOf i) (modeOf i) s.cfg l := by
  simp [inRunningDst, hl, hd, has_iff, dstRange]

/-! ## A step -/

@[simp] theorem busy_useTurn (s : State) : (useTurn s).busy = s.busy := rfl

/-- A step on the host's turn. -/
theorem step_of_hostMoves {s : State} {act : HostAction} {rest : List HostAction} (h : hostMoves s act rest) :
    step s = .next (hostAct act rest (useTurn s)) := by
  obtain ⟨h1, h2, h3⟩ := h
  rw [step, if_pos h1, h2]
  simp [takeTurn, hostStep, h3]

/-- A step on the engine's turn, where it has a step. -/
theorem step_of_engineMoves {s : State} {l : Latch} (h : engineMoves s l) :
    step s = match decodeLatch l with
      | .ok i => exec i (useTurn s)
      | .error _ => .next (complete .illegalCmd (useTurn s)) := by
  obtain ⟨h1, h2, h3, h4, h5⟩ := h
  rw [step, if_pos h1, h2]
  cases hd : decodeLatch l <;>
    simp only [takeTurn, engineStep, busy_useTurn, h3, useTurn_resetLine, h4, and_self, if_true, useTurn_latch, h5, hd]

/-- A latch is illegal exactly when RSV is not zero or OP is reserved (30_encoding.md R86). -/
theorem decodeFields_error_iff (op : BitVec 4) (mode : BitVec 1) (rsv : BitVec 27) :
    (∃ e, decodeFields op mode rsv = .error e) ↔ rsv ≠ 0#27 ∨ op = 0#4 ∨ 7 ≤ op.toNat := by
  by_cases hr : rsv = 0#27
  · have hop : op = BitVec.ofNat 4 op.toNat := by simp
    have hlt : op.toNat < 16 := op.isLt
    generalize op.toNat = n at hop hlt
    subst hop
    interval_cases n <;> simp [decodeFields, hr]
  · simp [decodeFields, hr]

/-- All that a step can do when it answers a next state. -/
theorem step_cases {s t : State} (h : step s = .next t) :
    s.cfg.ok ∧
      ((scheduledTurn s = .host ∧ t = hostStep (useTurn s)) ∨
       (scheduledTurn s = .resetAssert ∧ t = assertReset (useTurn s)) ∨
       (scheduledTurn s = .resetRelease ∧ t = releaseReset (useTurn s)) ∨
       (scheduledTurn s = .engine ∧ (s.busy = false ∨ s.resetLine = true) ∧ t = useTurn s) ∨
       (∃ l i, engineMoves s l ∧ decodeLatch l = .ok i ∧ exec i (useTurn s) = .next t) ∨
       (∃ l e, engineMoves s l ∧ decodeLatch l = .error e ∧ t = complete .illegalCmd (useTurn s))) := by
  by_cases hok : s.cfg.ok
  · refine ⟨hok, ?_⟩
    have h0 := h
    rw [step, if_pos hok] at h
    cases ht : scheduledTurn s with
    | host => rw [ht] at h; injection h with h; exact .inl ⟨rfl, h.symm⟩
    | resetAssert => rw [ht] at h; injection h with h; exact .inr (.inl ⟨rfl, h.symm⟩)
    | resetRelease => rw [ht] at h; injection h with h; exact .inr (.inr (.inl ⟨rfl, h.symm⟩))
    | engine =>
      rw [ht] at h
      by_cases hb : s.busy = true ∧ s.resetLine = false
      · cases hl : s.latch with
        | none => simp [takeTurn, engineStep, hb.1, hb.2, hl] at h
        | some l =>
          have hm : engineMoves s l := ⟨hok, ht, hb.1, hb.2, hl⟩
          rw [step_of_engineMoves hm] at h0
          cases hd : decodeLatch l with
          | ok i => rw [hd] at h0; exact .inr (.inr (.inr (.inr (.inl ⟨l, i, hm, hd, h0⟩))))
          | error e =>
            rw [hd] at h0
            injection h0 with h0
            exact .inr (.inr (.inr (.inr (.inr ⟨l, e, hm, hd, h0.symm⟩))))
      · have he : engineStep (useTurn s) = .next (useTurn s) := by
          rw [engineStep, if_neg]
          simpa using hb
        rw [takeTurn, he] at h
        injection h with h
        refine .inr (.inr (.inr (.inl ⟨rfl, ?_, h.symm⟩)))
        by_cases hb' : s.busy = true
        · exact .inr (by simpa [hb'] using hb)
        · exact .inl (by simpa using hb')
  · rw [step, if_neg hok] at h; cases h

/-! ## STATUS -/

theorem completedWith_completed (e : ErrCode) (w : Word) : completedWith (errBits e) w (statusCompleted e w) := by
  refine ⟨by simp, by simp, by simp, fun k hk h => ?_⟩
  rw [getLsbD_statusCompleted _ _ _ hk, if_neg (by omega), if_neg (by omega), if_neg (by omega)]

theorem statusLegal_accepted {w : Word} (h : statusLegal w) : statusLegal (statusAccepted w) := by
  refine ⟨(statusReserved_iff _).2 fun k hk hr => ?_, by simp, by simp, by simp⟩
  rw [getLsbD_statusAccepted _ _ hk, if_neg (by omega), if_neg (by omega), if_neg (by omega), if_neg (by omega)]
  exact (statusReserved_iff _).1 h.1 k hk hr

theorem statusLegal_completed {w : Word} (e : ErrCode) (h : statusLegal w) : statusLegal (statusCompleted e w) := by
  refine ⟨(statusReserved_iff _).2 fun k hk hr => ?_, by simp, by simp, by simp [errBits_toNat_le]⟩
  rw [getLsbD_statusCompleted _ _ _ hk, if_neg (by omega), if_neg (by omega), if_neg (by omega)]
  exact (statusReserved_iff _).1 h.1 k hk hr

theorem statusLegal_dropped {w : Word} (h : statusLegal w) : statusLegal (statusDropped w) := by
  refine ⟨(statusReserved_iff _).2 fun k hk hr => ?_, by simpa using h.2.1, by simpa using h.2.2.1,
    by simpa using h.2.2.2⟩
  rw [getLsbD_statusDropped _ _ hk, if_neg (by omega)]
  exact (statusReserved_iff _).1 h.1 k hk hr

/-! ## The invariant under updates it does not read -/

theorem inv_useTurn {s : State} (h : Inv s) : Inv (useTurn s) := ⟨h.1, h.2, h.3, h.4, h.5, h.6, h.7, h.8⟩

theorem inv_withScript {s : State} (h : Inv s) (r : List HostAction) : Inv { s with script := r } :=
  ⟨h.1, h.2, h.3, h.4, h.5, h.6, h.7, h.8⟩

theorem inv_withSeen {s : State} (h : Inv s) (r : List Observation) : Inv { s with seen := r } :=
  ⟨h.1, h.2, h.3, h.4, h.5, h.6, h.7, h.8⟩

theorem not_busy_of_resetLine {s : State} (h : Inv s) (hr : s.resetLine = true) : s.busy = false := by
  have := (h.reset_regs hr).2.1
  rw [State.busy, this]
  rfl

theorem runSteps_succ {s t : State} (h : step s = .next t) (k : Nat) : runSteps (k + 1) s = runSteps k t := by
  rw [runSteps, h]

end Sys2Proof.Machine
end

