-- ==== Sys2Proof/Tests/Slice0.lean ====
section
/-! SUPPORT. Tests: what is ill formed is refused, the words of 30_encoding.md R90, vectors of 95_test_vectors.md, and for
every statement with hypotheses a state that meets them. -/

namespace Sys2Proof.Tests

open Sys2Proof.Machine

/-! ## Helpers -/

/-- The small configuration T4 of 95_test_vectors.md: 4 elements to a blob, 4096 bytes of BUF. -/
def cfg4 : Config := { Config.default with nElements := 4, bufBytes := 4096 }

/-- An idle machine with the operand registers set. -/
def regs (src dst len count nblobs : Nat) : State :=
  { State.resetWith cfg4 with
    src := BitVec.ofNat 32 src, dst := BitVec.ofNat 32 dst, len := BitVec.ofNat 32 len
    count := BitVec.ofNat 32 count, nblobs := BitVec.ofNat 32 nblobs }

/-- A machine that has accepted the word `v` with these operands, `bytes` stored at SRC, the engine next. -/
def ready (v : Word) (src dst len count nblobs : Nat) (bytes : List Byte) : State :=
  accept v (memWrite src bytes (regs src dst len count nblobs))

/-- The latch of `ready`. -/
def latch (v : Word) (src dst len count nblobs : Nat) : Latch := latchOf v (regs src dst len count nblobs)

/-- The machine `s` with the host next, its script being `act`. -/
def hostNext (s : State) (act : HostAction) : State := { s with turns := [.host], script := [act] }

/-- STATUS, COUNT, NBLOBS, OUTLEN and `n` bytes at `a`, after one step. -/
def after (s : State) (a n : Nat) : Option (Nat × Nat × Nat × Nat × List Byte) :=
  match step s with
  | .next t => some (t.status.toNat, t.count.toNat, t.nblobs.toNat, t.outlen.toNat, memRead t a n)
  | _ => none

/-- STATUS and OUTLEN after one step, and whether BUF is what it was. -/
def afterError (s : State) : Option (Nat × Nat × Bool) :=
  match step s with
  | .next t => some (t.status.toNat, t.outlen.toNat, decide (t.buf = s.buf))
  | _ => none

/-- `n` copies of a byte. -/
def rep (n : Nat) (b : Byte) : List Byte := List.replicate n b

/-- The field element `Xi` of 95_test_vectors.md. -/
def el (i : Nat) : List Byte := BitVec.ofNat 8 (0x10 + i) :: rep 31 0#8

/-- The elements `X0` to `X4`. -/
def x5 : List Byte := el 0 ++ el 1 ++ el 2 ++ el 3 ++ el 4

/-! ## What is ill formed is refused (00_scope.md R7; 30_encoding.md R86) -/

theorem test_default_config_ok : Config.default.ok := by decide
theorem test_no_elements_refused : ¬ ({ cfg4 with nElements := 0 } : Config).ok := by decide
theorem test_too_many_elements_refused : ¬ ({ cfg4 with nElements := 2 ^ 32 } : Config).ok := by decide
theorem test_no_buffer_refused : ¬ ({ cfg4 with bufBytes := 0 } : Config).ok := by decide
theorem test_too_large_buffer_refused : ¬ ({ cfg4 with bufBytes := 2 ^ 32 } : Config).ok := by decide
theorem test_small_modulus_refused : ¬ ({ cfg4 with modulus := 2 ^ 254 } : Config).ok := by decide
theorem test_largest_config_ok : ({ cfg4 with nElements := 2 ^ 32 - 1, bufBytes := 2 ^ 32 - 1 } : Config).ok := by
  decide
theorem test_smallest_config_ok : (⟨1, 1, 2 ^ 254 + 1⟩ : Config).ok := by decide
theorem test_illegal_words_refused :
    ¬ legalWord 0x00000000#32 ∧ ¬ legalWord 0x00000007#32 ∧ ¬ legalWord 0x00000021#32 ∧ ¬ legalWord 0x80000001#32 := by
  decide
theorem test_every_command_wellFormed : ∀ i : Instr, i.wellFormed = true := by intro i; cases i <;> rfl

/-! ## Decoding: the pattern of 30_encoding.md R81 written out, RSV then MODE then OP -/

theorem test_decode_packT : decode 0b000000000000000000000000000_0_0001#32 = .ok .packT := by decide
theorem test_decode_packN : decode 0b000000000000000000000000000_1_0001#32 = .ok .packN := by decide
theorem test_decode_unpackT : decode 0b000000000000000000000000000_0_0010#32 = .ok .unpackT := by decide
theorem test_decode_unpackN : decode 0b000000000000000000000000000_1_0010#32 = .ok .unpackN := by decide
theorem test_decode_assembleT : decode 0b000000000000000000000000000_0_0011#32 = .ok .assembleT := by decide
theorem test_decode_assembleN : decode 0b000000000000000000000000000_1_0011#32 = .ok .assembleN := by decide
theorem test_decode_disassembleT : decode 0b000000000000000000000000000_0_0100#32 = .ok .disassembleT := by decide
theorem test_decode_disassembleN : decode 0b000000000000000000000000000_1_0100#32 = .ok .disassembleN := by decide
theorem test_decode_encodeT : decode 0b000000000000000000000000000_0_0101#32 = .ok .encodeT := by decide
theorem test_decode_encodeN : decode 0b000000000000000000000000000_1_0101#32 = .ok .encodeN := by decide
theorem test_decode_decodeT : decode 0b000000000000000000000000000_0_0110#32 = .ok .decodeT := by decide
theorem test_decode_decodeN : decode 0b000000000000000000000000000_1_0110#32 = .ok .decodeN := by decide

/-- Reserved opcodes and each boundary bit of RSV are rejected by name. -/
theorem test_decode_rejects :
    decode 0b000000000000000000000000000_0_0000#32 = .error (.reservedOpcode 0#4) ∧
    decode 0b000000000000000000000000000_1_0111#32 = .error (.reservedOpcode 7#4) ∧
    decode 0b000000000000000000000000000_0_1111#32 = .error (.reservedOpcode 15#4) ∧
    decode 0b000000000000000000000000001_0_0001#32 = .error (.reservedBitsSet 1#27) ∧
    decode 0b100000000000000000000000000_0_0001#32 = .error (.reservedBitsSet 0x4000000#27) := by decide

theorem test_decodeTableWord :
    decodeTableWord 32 0x16 = some .decodeN ∧ decodeTableWord 8 0x03 = some .assembleT ∧
      decodeTableWord 32 0x27 = none := by decide

/-! ## One step, from the vectors of 95_test_vectors.md -/

/-- V20. -/
theorem test_packT_one_byte :
    after (ready 0x01#32 0 0x100 1 0 0 [0x80#8]) 0x100 32 = some (2, 1, 0, 32, 0x20#8 :: rep 31 0#8) := by
  decide +kernel
/-- V22. -/
theorem test_packT_ones :
    after (ready 0x01#32 0 0x100 32 0 0 (rep 32 0xFF#8)) 0x100 64 =
      some (2, 2, 0, 64, 0x3F#8 :: rep 31 0xFF#8 ++ 0x30#8 :: rep 31 0#8) := by decide +kernel
/-- V21. -/
theorem test_packN_one_byte :
    after (ready 0x11#32 0 0x100 1 0 0 [0x80#8]) 0x100 32 = some (2, 1, 0, 32, 0x00#8 :: 0x80#8 :: rep 30 0#8) := by
  decide +kernel
/-- V23. -/
theorem test_packN_ones :
    after (ready 0x11#32 0 0x100 32 0 0 (rep 32 0xFF#8)) 0x100 64 =
      some (2, 2, 0, 64, 0x00#8 :: rep 31 0xFF#8 ++ 0x00#8 :: 0xFF#8 :: rep 30 0#8) := by decide +kernel
/-- V38: bits above the width and after the payload are ignored. -/
theorem test_unpackT_prefix :
    after (ready 0x02#32 0 0x100 1 1 0 (0xE0#8 :: 0x3F#8 :: rep 30 0xFF#8)) 0x100 1 = some (2, 1, 0, 1, [0x80#8]) := by
  decide +kernel
/-- V31. -/
theorem test_unpackT_mismatch :
    afterError (ready 0x02#32 0 0x100 32 1 0 (0x20#8 :: rep 31 0#8)) = some (0x12, 0, true) := by decide +kernel
/-- V33. -/
theorem test_unpackN_high_byte :
    after (ready 0x12#32 0 0x100 31 1 0 (0xAB#8 :: (List.range 31).map fun k => BitVec.ofNat 8 (k + 1))) 0x100 31 =
      some (2, 1, 0, 31, (List.range 31).map fun k => BitVec.ofNat 8 (k + 1)) := by decide +kernel
/-- V39. -/
theorem test_unpackN_mismatch :
    afterError (ready 0x12#32 0 0x100 32 1 0 (0x00#8 :: rep 31 0x11#8)) = some (0x12, 0, true) := by decide +kernel
/-- V40. -/
theorem test_assembleT_empty : after (ready 0x03#32 0 0x200 0 0 0 []) 0x270 16 = some (2, 0, 1, 128, rep 16 0#8) := by
  decide +kernel
/-- V42: the second blob's first element, then zero bytes. -/
theorem test_assembleT_two_blobs :
    after (ready 0x03#32 0 0x200 0 5 0 x5) 0x280 34 = some (2, 5, 2, 256, el 4 ++ rep 2 0#8) := by decide +kernel
/-- V43: any value is copied unchanged. -/
theorem test_assembleN_unchanged :
    after (ready 0x13#32 0 0x200 0 1 0 (rep 32 0xFF#8)) 0x210 20 = some (2, 1, 1, 128, rep 16 0xFF#8 ++ rep 4 0#8) := by
  decide +kernel
/-- V50: the last two of the five elements. -/
theorem test_disassembleT_five :
    after (ready 0x04#32 0 0x200 0 5 2 (x5 ++ rep 96 0#8)) 0x260 33 = some (2, 5, 2, 160, el 3 ++ [0x14#8]) := by
  decide +kernel
/-- V53. -/
theorem test_disassembleT_mismatch : afterError (ready 0x04#32 0 0x200 0 1 0 []) = some (0x22, 0, true) := by
  decide +kernel
/-- V54: padding may be asked for. -/
theorem test_disassembleN_all :
    after (ready 0x14#32 0 0x200 0 8 2 (x5 ++ rep 96 0#8)) 0x280 34 = some (2, 8, 2, 256, el 4 ++ rep 2 0#8) := by
  decide +kernel
/-- V60. -/
theorem test_encodeT_empty : after (ready 0x05#32 0 0x200 0 7 7 []) 0x200 128 = some (2, 0, 1, 128, rep 128 0#8) := by
  decide +kernel
/-- V11 framed (R152). -/
theorem test_encodeN_one_byte :
    after (ready 0x15#32 0 0x200 1 7 7 [0x80#8]) 0x200 128 = some (2, 1, 1, 128, 0x00#8 :: 0x80#8 :: rep 126 0#8) := by
  decide +kernel
/-- V71: a DECODE with too few elements leaves COUNT. -/
theorem test_decodeT_mismatch : afterError (ready 0x06#32 0 0x200 128 0 1 []) = some (0x22, 0, true) := by decide +kernel
/-- V20 decoded back (V3). -/
theorem test_decodeT_one_byte :
    after (ready 0x06#32 0 0x200 1 0 1 (0x20#8 :: rep 127 0#8)) 0x200 1 = some (2, 1, 1, 1, [0x80#8]) := by decide +kernel
/-- V73: the wrong mode is not detected. -/
theorem test_decodeN_wrong_mode :
    after (ready 0x16#32 0 0x200 1 0 1 (0x20#8 :: rep 127 0#8)) 0x200 1 = some (2, 1, 1, 1, [0x00#8]) := by decide +kernel

/-- V80 to V83: illegal words. -/
theorem test_illegal_words :
    ([0x00000000#32, 0x00000007#32, 0x00000021#32, 0x80000001#32].map fun v =>
      afterError (ready v 0 0x100 1 0 0 [0x80#8])) = List.replicate 4 (some (0x32, 0, true)) := by decide +kernel
/-- V84, V85, V88, V90, V91 (bounds), V86 (overlap) and V89 (empty ranges at the end of BUF). -/
theorem test_bounds_and_overlap :
    (([(4090, 10, 0), (0, 1, 4090), (4080, 16, 4090), (4097, 0, 0), (0xFFFFFFFF, 1, 0), (0, 16, 8), (4096, 0, 4096)] :
        List (Nat × Nat × Nat)).map fun r => (afterError (ready 0x01#32 r.1 r.2.2 r.2.1 0 0 [])).map (·.1)) =
      [0x42, 0x42, 0x42, 0x42, 0x42, 0x52, 0x02].map some := by decide +kernel
/-- V87: the value error wins. -/
theorem test_value_error_first : afterError (ready 0x02#32 4090 4090 32 1 0 []) = some (0x12, 0, true) := by
  decide +kernel
/-- V92 and V93: sizes that do not fit a word are exact. -/
theorem test_exact_sizes :
    afterError (ready 0x03#32 0 0 0 0xFFFFFFFF 0 []) = some (0x42, 0, true) ∧
      afterError (ready 0x04#32 0 0 0 0 0xFFFFFFFF []) = some (0x42, 0, true) := by decide +kernel
/-- V95 and V96: BUSY after acceptance, a write while busy sets WERR, which completion keeps. -/
theorem test_write_while_busy :
    (ready 0x01#32 0 0x100 0 0 0 []).status = 1#32 ∧
      (afterError { writeSlot 4#4 5#32 (ready 0x01#32 0 0x100 0 0 0 []) with turns := [] }).map (·.1) = some 0x06 ∧
      (writeSlot 4#4 5#32 (ready 0x01#32 0 0x100 0 0 0 [])).len = 0#32 := by decide +kernel

theorem cfg4_ok : cfg4.ok := by decide

theorem regs_idle : statusBusy 0#32 = false := by decide

theorem accepted_busy : statusBusy (statusAccepted 0#32) = true := by decide

/-! ## Witnesses: states that meet the hypotheses of the statements -/

theorem witness_idle_writes (k : BitVec 4) (v : Word) :
    hostMoves (hostNext (regs 1 2 3 4 5) (.writeReg k v)) (.writeReg k v) [] ∧
      (hostNext (regs 1 2 3 4 5) (.writeReg k v)).busy = false ∧
      (hostNext (regs 1 2 3 4 5) (.writeReg k v)).resetLine = false := ⟨⟨cfg4_ok, rfl, rfl⟩, regs_idle, rfl⟩

theorem witness_busy_writes (k : BitVec 4) (v : Word) :
    hostMoves (hostNext (ready 0x01#32 0 64 1 0 0 []) (.writeReg k v)) (.writeReg k v) [] ∧
      (hostNext (ready 0x01#32 0 64 1 0 0 []) (.writeReg k v)).busy = true ∧
      (hostNext (ready 0x01#32 0 64 1 0 0 []) (.writeReg k v)).resetLine = false :=
  ⟨⟨cfg4_ok, rfl, rfl⟩, accepted_busy, rfl⟩

theorem witness_reserved_slots : 10 ≤ (10#4).toNat ∧ 10 ≤ (15#4).toNat ∧ ¬ 10 ≤ (9#4).toNat := by decide

theorem witness_host_moves (act : HostAction) : hostMoves (hostNext (regs 0 64 1 0 0) act) act [] :=
  ⟨cfg4_ok, rfl, rfl⟩

/-- The last byte that exists, the first that does not, and both edges of the destination range [64, 96). -/
theorem witness_byte_reads (act : HostAction) :
    hostMoves (hostNext (ready 0x01#32 0 64 1 0 0 []) act) act [] ∧
      (hostNext (ready 0x01#32 0 64 1 0 0 []) act).busy = true ∧
      [63, 64, 95, 96, 4095].map (inRunningDst (hostNext (ready 0x01#32 0 64 1 0 0 []) act)) =
        [false, true, true, false, false] ∧
      4095 < cfg4.bufBytes ∧ cfg4.bufBytes ≤ 4096 :=
  ⟨⟨cfg4_ok, rfl, rfl⟩, accepted_busy, rfl, by decide, by decide⟩

/-- The edges of the source range [0, 1) and of the destination range [64, 96), inside and outside. -/
theorem witness_contract_breach (act : HostAction) :
    hostMoves (hostNext (ready 0x01#32 0 64 1 0 0 []) act) act [] ∧
      (hostNext (ready 0x01#32 0 64 1 0 0 []) act).busy = true ∧
      (hostNext (ready 0x01#32 0 64 1 0 0 []) act).latch = some (latch 0x01#32 0 64 1 0 0) ∧
      decodeLatch (latch 0x01#32 0 64 1 0 0) = .ok .packT ∧
      [0, 1, 63, 64, 95, 96].map (inRunningRanges (hostNext (ready 0x01#32 0 64 1 0 0 []) act)) =
        [true, false, false, true, true, false] :=
  ⟨⟨cfg4_ok, rfl, rfl⟩, accepted_busy, rfl, by decide, rfl⟩

theorem witness_wait_and_check :
    hostMoves (hostNext (ready 0x01#32 0 64 1 0 0 []) .wait) .wait [] ∧
      (hostNext (ready 0x01#32 0 64 1 0 0 []) .wait).busy = true ∧
      hostMoves (hostNext (regs 0 64 1 0 0) .wait) .wait [] ∧ (hostNext (regs 0 64 1 0 0) .wait).busy = false ∧
      hostMoves (hostNext (regs 0 64 1 0 0) (.check 0#32)) (.check 0#32) [] ∧
      hostMoves (hostNext (regs 0 64 1 0 0) (.check 2#32)) (.check 2#32) [] ∧
      (regs 0 64 1 0 0).status = 0#32 ∧ (regs 0 64 1 0 0).status ≠ 2#32 := by decide

theorem witness_step_runs :
    engineMoves (ready 0x01#32 0 64 1 0 0 []) (latch 0x01#32 0 64 1 0 0) ∧
      decodeLatch (latch 0x01#32 0 64 1 0 0) = .ok .packT := by decide

theorem witness_illegal_word :
    engineMoves (ready 0x00#32 0 64 1 0 0 []) (latch 0x00#32 0 64 1 0 0) ∧ (latch 0x00#32 0 64 1 0 0).op = 0#4 ∧
      engineMoves (ready 0x07#32 0 64 1 0 0 []) (latch 0x07#32 0 64 1 0 0) ∧
      7 ≤ (latch 0x07#32 0 64 1 0 0).op.toNat ∧
      engineMoves (ready 0x21#32 0 64 1 0 0 []) (latch 0x21#32 0 64 1 0 0) ∧
      (latch 0x21#32 0 64 1 0 0).rsv ≠ 0#27 := by decide

theorem witness_idle_engine :
    ({ regs 0 64 1 0 0 with turns := [.engine] } : State).cfg.ok ∧
      scheduledTurn { regs 0 64 1 0 0 with turns := [.engine] } = .engine ∧
      ({ regs 0 64 1 0 0 with turns := [.engine] } : State).busy = false := by decide

theorem witness_configuration_refused :
    step (State.resetWith { cfg4 with nElements := 0 }) = .refused .configOutOfRange ∧
      step (State.resetWith { cfg4 with bufBytes := 0 }) = .refused .configOutOfRange ∧
      step (State.resetWith { cfg4 with modulus := 2 ^ 254 }) = .refused .configOutOfRange := ⟨rfl, rfl, rfl⟩

/-- Operands for each outcome, just at and just past each limit. `witness_step_runs` and `witness_illegal_word` meet the
hypotheses of `ErrorPriority`. -/
theorem witness_error_priority :
    commandError .unpack .tight cfg4 (latch 0x02#32 0 64 31 1 0) = .none ∧
      commandError .unpack .tight cfg4 (latch 0x02#32 0 64 32 1 0) = .lengthMismatch ∧
      commandError .disassemble .tight cfg4 (latch 0x04#32 0 256 0 4 1) = .none ∧
      commandError .disassemble .tight cfg4 (latch 0x04#32 0 256 0 5 1) = .chunkCountMismatch ∧
      commandError .decode .tight cfg4 (latch 0x06#32 0 256 127 0 1) = .none ∧
      commandError .decode .tight cfg4 (latch 0x06#32 0 256 128 0 1) = .chunkCountMismatch ∧
      commandError .pack .tight cfg4 (latch 0x01#32 4095 64 1 0 0) = .none ∧
      commandError .pack .tight cfg4 (latch 0x01#32 4096 64 1 0 0) = .bounds ∧
      commandError .pack .tight cfg4 (latch 0x01#32 96 64 1 0 0) = .none ∧
      commandError .pack .tight cfg4 (latch 0x01#32 95 64 1 0 0) = .overlap := by decide +kernel

theorem witness_errors_precise :
    engineMoves (ready 0x01#32 4096 64 1 0 0 []) (latch 0x01#32 4096 64 1 0 0) ∧
      (ready 0x01#32 4096 64 1 0 0 []).hazard = false ∧
      ∃ t, step (ready 0x01#32 4096 64 1 0 0 []) = .next t ∧ statusErr t.status ≠ 0#4 :=
  ⟨by decide, rfl, _, rfl, by decide +kernel⟩

/-- Every command answers a next state at `ready`: the hypotheses of `EveryCommandCompletes`,
`CommandWritesOnlyDestination`, `RegistersIgnoreBuf`, `WerrNeverAffectsResult` and `ChunksBelowModulus`. -/
theorem witness_next (i : Instr) :
    (ready (encode i) 0 64 1 0 0 []).cfg.ok ∧
      (ready (encode i) 0 64 1 0 0 []).latch = some (latch (encode i) 0 64 1 0 0) ∧
      (ready (encode i) 0 64 1 0 0 []).hazard = false ∧ ∃ t, exec i (ready (encode i) 0 64 1 0 0 []) = .next t := by
  refine ⟨cfg4_ok, rfl, rfl, ?_⟩
  cases i <;> exact ⟨_, rfl⟩

/-- Operands that meet the hypotheses of the completion statements, a source ending where the destination starts. -/
theorem witness_completions :
    (0 + 1 ≤ 4096 ∧ 64 + 32 * ceilDiv (8 * 1) 254 ≤ 4096 ∧ 64 + 32 * ceilDiv (8 * 1) 248 ≤ 4096) ∧
      (∀ w ∈ [254, 248], commandError .pack (if w = 254 then .tight else .naive) cfg4 (latch 1#32 63 64 1 0 0) = .none ∧
        commandError .unpack (if w = 254 then .tight else .naive) cfg4 (latch 2#32 0 32 31 1 0) = .none ∧
        commandError .assemble (if w = 254 then .tight else .naive) cfg4 (latch 3#32 0 32 0 1 0) = .none ∧
        commandError .disassemble (if w = 254 then .tight else .naive) cfg4 (latch 4#32 0 128 0 4 1) = .none ∧
        commandError .encode (if w = 254 then .tight else .naive) cfg4 (latch 5#32 0 1 1 0 0) = .none ∧
        commandError .decode (if w = 254 then .tight else .naive) cfg4 (latch 6#32 0 128 124 0 1) = .none) := by
  decide +kernel

theorem witness_pack_completes :
    (ready 0x01#32 63 64 1 0 0 []).latch = some (latch 0x01#32 63 64 1 0 0) ∧
      (ready 0x01#32 63 64 1 0 0 []).cfg.ok ∧ (ready 0x01#32 63 64 1 0 0 []).hazard = false ∧
      63 + 1 ≤ 4096 ∧ 64 + 32 * 1 ≤ 4096 ∧ 1 = ceilDiv (8 * 1) 254 ∧ 1 = ceilDiv (8 * 1) 248 ∧
      ¬ (0 < 1 ∧ 0 < 32 * 1 ∧ 63 < 64 + 32 * 1 ∧ 64 < 63 + 1) := by decide

theorem witness_unpack_completes :
    (ready 0x02#32 0 32 31 1 0 []).latch = some (latch 0x02#32 0 32 31 1 0) ∧
      (ready 0x02#32 0 32 31 1 0 []).cfg.ok ∧ (ready 0x02#32 0 32 31 1 0 []).hazard = false ∧
      8 * 31 ≤ 1 * 254 ∧ 8 * 31 ≤ 1 * 248 ∧ 0 + 32 * 1 ≤ 4096 ∧ 32 + 31 ≤ 4096 ∧
      ¬ (0 < 32 * 1 ∧ 0 < 31 ∧ 0 < 32 + 31 ∧ 32 < 0 + 32 * 1) := by decide

theorem witness_assemble_completes :
    (ready 0x03#32 0 32 0 1 0 []).latch = some (latch 0x03#32 0 32 0 1 0) ∧
      (ready 0x03#32 0 32 0 1 0 []).cfg.ok ∧ (ready 0x03#32 0 32 0 1 0 []).hazard = false ∧
      1 = max 1 (ceilDiv 1 4) ∧ 0 + 32 * 1 ≤ 4096 ∧ 32 + 32 * 4 * 1 ≤ 4096 ∧
      ¬ (0 < 32 * 1 ∧ 0 < 32 * 4 * 1 ∧ 0 < 32 + 32 * 4 * 1 ∧ 32 < 0 + 32 * 1) := by decide

theorem witness_disassemble_completes :
    (ready 0x04#32 0 128 0 4 1 []).latch = some (latch 0x04#32 0 128 0 4 1) ∧
      (ready 0x04#32 0 128 0 4 1 []).cfg.ok ∧ (ready 0x04#32 0 128 0 4 1 []).hazard = false ∧
      4 ≤ 4 * 1 ∧ 0 + 32 * 4 * 1 ≤ 4096 ∧ 128 + 32 * 4 ≤ 4096 ∧
      ¬ (0 < 32 * 4 * 1 ∧ 0 < 32 * 4 ∧ 0 < 128 + 32 * 4 ∧ 128 < 0 + 32 * 4 * 1) := by decide

theorem witness_encode_completes :
    (ready 0x05#32 0 1 1 0 0 []).latch = some (latch 0x05#32 0 1 1 0 0) ∧
      (ready 0x05#32 0 1 1 0 0 []).cfg.ok ∧ (ready 0x05#32 0 1 1 0 0 []).hazard = false ∧
      1 = ceilDiv (8 * 1) 254 ∧ 1 = ceilDiv (8 * 1) 248 ∧ 1 = max 1 (ceilDiv 1 4) ∧
      0 + 1 ≤ 4096 ∧ 1 + 32 * 4 * 1 ≤ 4096 ∧
      ¬ (0 < 1 ∧ 0 < 32 * 4 * 1 ∧ 0 < 1 + 32 * 4 * 1 ∧ 1 < 0 + 1) := by decide

theorem witness_decode_completes :
    (ready 0x06#32 0 128 124 0 1 []).latch = some (latch 0x06#32 0 128 124 0 1) ∧
      (ready 0x06#32 0 128 124 0 1 []).cfg.ok ∧ (ready 0x06#32 0 128 124 0 1 []).hazard = false ∧
      4 = ceilDiv (8 * 124) 254 ∧ 4 = ceilDiv (8 * 124) 248 ∧ 4 ≤ 4 * 1 ∧
      0 + 32 * 4 * 1 ≤ 4096 ∧ 128 + 124 ≤ 4096 ∧
      ¬ (0 < 32 * 4 * 1 ∧ 0 < 124 ∧ 0 < 128 + 124 ∧ 128 < 0 + 32 * 4 * 1) := by decide

theorem witness_invalid_latch : State.reset.latch = none := rfl

theorem witness_broken_contract :
    ({ ready 0x01#32 0 64 1 0 0 [] with hazard := true } : State).latch = some (latch 0x01#32 0 64 1 0 0) ∧
      ({ ready 0x01#32 0 64 1 0 0 [] with hazard := true } : State).hazard = true ∧
      ({ ready 0x01#32 0 64 1 0 0 [] with hazard := true } : State).cfg.ok := by decide

/-- A byte just past the source, one just before and one just past the destination. -/
theorem witness_harmless_write :
    (ready 0x01#32 0 64 1 0 0 []).cfg.ok ∧
      (ready 0x01#32 0 64 1 0 0 []).latch = some (latch 0x01#32 0 64 1 0 0) ∧
      (∀ a ∈ [1, 63, 96], ¬ (0 ≤ a ∧ a < 0 + srcSize .pack cfg4 (latch 0x01#32 0 64 1 0 0)) ∧
        ¬ (64 ≤ a ∧ a < 64 + dstSize .pack .tight cfg4 (latch 0x01#32 0 64 1 0 0))) ∧
      ∃ t, exec .packT (ready 0x01#32 0 64 1 0 0 []) = .next t := ⟨cfg4_ok, rfl, by decide, _, rfl⟩

theorem witness_chunks_below_modulus :
    cfg4.ok ∧ 0#256 ∈ pack [0#8] 254 ∧ 0#256 ∈ pack [0#8] 248 ∧ pack [0#8] (usableBits .tight) ≠ [] := by
  decide +kernel

theorem witness_helper_functions :
    1 ≤ 254 ∧ 0 < 32 ∧ 31 < 32 ∧ (rep 32 0xFF#8).length = 32 ∧ ceilDiv 254 254 ≤ 1 ∧ ¬ ceilDiv 255 254 ≤ 1 := by decide

/-- The first and the last chunk of a payload, and bits inside and past the payload. -/
theorem witness_pack_bits :
    (pack (rep 32 0xFF#8) 254)[0]? = some (BitVec.ofNat 256 (2 ^ 254 - 1)) ∧
      (pack (rep 32 0xFF#8) 254)[1]? = some (BitVec.ofNat 256 (3 * 2 ^ 252)) ∧
      1 * 254 + 1 < 8 * 32 ∧ ¬ 1 * 254 + 2 < 8 * 32 := by decide +kernel

/-- V36 and V35: one byte too many, and exactly enough. -/
theorem witness_unpack_bits :
    8 * 128 > (List.replicate 4 (0#256)).length * 254 ∧ 8 * 127 ≤ (List.replicate 4 (0#256)).length * 254 := by decide

theorem witness_unpack_high_bits :
    ([0xFF#256 <<< 248].length = [0#256].length) ∧
      ∀ b, b < 248 → (0xFF#256 <<< 248).getLsbD b = (0#256).getLsbD b := ⟨rfl, by decide +kernel⟩

/-- V38 against V30: the two elements agree on the first eight bits. -/
theorem witness_unpack_prefix :
    8 * 1 ≤ [0xE03F#256 <<< 240].length * 254 ∧ 8 * 1 ≤ [0x20#256 <<< 248].length * 254 ∧
      ∀ n, n < 8 * 1 →
        ([0xE03F#256 <<< 240].getD (n / 254) 0#256).getLsbD (254 - 1 - n % 254) =
          ([0x20#256 <<< 248].getD (n / 254) 0#256).getLsbD (254 - 1 - n % 254) := by decide +kernel

theorem witness_naive_aligned :
    (pack [0x80#8] 248)[0]? = some (0x80#256 <<< 240) ∧ unpack [0x80#256 <<< 240] 248 (8 * 1) = .ok [0x80#8] := by
  decide +kernel

theorem witness_disassemble :
    1 ≤ 4 ∧ (∀ b ∈ [List.replicate 4 (0#256)], b.length = 4) ∧
      4 ≤ 4 * [List.replicate 4 (0#256)].length ∧ 5 > 4 * [List.replicate 4 (0#256)].length ∧
      chunkCount 127 254 = 4 ∧ chunkCount 128 254 = 5 := by decide +kernel

theorem witness_capacity : 1 ≤ 4 ∧ 4 * 254 % 8 = 0 ∧ 1 * 248 % 8 = 0 := by decide

/-- ENCODE to 256, and PACK to the scratch area 128 followed by ASSEMBLE of it to 256: all three succeed. -/
theorem witness_encode_is_pack_then_assemble :
    (ready 0x05#32 0 256 1 0 0 [0x80#8]).cfg.ok ∧ (ready 0x05#32 0 256 1 0 0 [0x80#8]).hazard = false ∧
      (ready 0x05#32 0 256 1 0 0 [0x80#8]).latch = some (latch 0x05#32 0 256 1 0 0) ∧
      ∃ t0 t1 t2,
        exec .encodeT (ready 0x05#32 0 256 1 0 0 [0x80#8]) = .next t0 ∧ statusErr t0.status = 0#4 ∧
        exec .packT { ready 0x05#32 0 256 1 0 0 [0x80#8] with
          latch := some { latch 0x05#32 0 256 1 0 0 with dst := 128#32 } } = .next t1 ∧ statusErr t1.status = 0#4 ∧
        exec .assembleT { t1 with
          latch := some { latch 0x05#32 0 256 1 0 0 with src := 128#32, count := t1.count } } = .next t2 ∧
        statusErr t2.status = 0#4 :=
  ⟨by decide, rfl, rfl, _, _, _, rfl, by decide +kernel, rfl, by decide +kernel, rfl, by decide +kernel⟩

theorem witness_pack_then_unpack :
    (ready 0x01#32 0 256 1 0 0 [0x80#8]).cfg.ok ∧ (ready 0x01#32 0 256 1 0 0 [0x80#8]).hazard = false ∧
    (ready 0x01#32 0 256 1 0 0 [0x80#8]).latch = some (latch 0x01#32 0 256 1 0 0) ∧ ∃ t1 t2, exec .packT (ready 0x01#32 0 256 1 0 0 [0x80#8]) = .next t1 ∧ statusErr t1.status = 0#4 ∧
      exec .unpackT { t1 with
        latch := some { latch 0x01#32 0 256 1 0 0 with src := 256#32, dst := 512#32, count := t1.count } } = .next t2 ∧
      statusErr t2.status = 0#4 := ⟨cfg4_ok, rfl, rfl, _, _, rfl, by decide +kernel, rfl, by decide +kernel⟩

theorem witness_encode_then_decode :
    (ready 0x15#32 0 256 1 0 0 [0x80#8]).cfg.ok ∧ (ready 0x15#32 0 256 1 0 0 [0x80#8]).hazard = false ∧
    (ready 0x15#32 0 256 1 0 0 [0x80#8]).latch = some (latch 0x15#32 0 256 1 0 0) ∧ ∃ t1 t2, exec .encodeN (ready 0x15#32 0 256 1 0 0 [0x80#8]) = .next t1 ∧ statusErr t1.status = 0#4 ∧
      exec .decodeN { t1 with
        latch := some { latch 0x15#32 0 256 1 0 0 with src := 256#32, dst := 512#32, nblobs := t1.nblobs } } =
          .next t2 ∧
      statusErr t2.status = 0#4 := ⟨cfg4_ok, rfl, rfl, _, _, rfl, by decide +kernel, rfl, by decide +kernel⟩

theorem witness_reset_abandons :
    ({ ready 0x01#32 0 64 1 0 0 [] with turns := [.resetAssert] } : State).cfg.ok ∧
      scheduledTurn { ready 0x01#32 0 64 1 0 0 [] with turns := [.resetAssert] } = .resetAssert := by decide

theorem witness_inv_busy : Inv (ready 0x01#32 0 64 1 0 0 []) :=
  ⟨by decide, by decide, by decide, by decide, by decide, by decide, by decide, by decide⟩

theorem witness_inv_in_reset :
    Inv (assertReset (regs 0 64 1 0 0)) ∧ (assertReset (regs 0 64 1 0 0)).resetLine = true :=
  ⟨⟨by decide, by decide, by decide, by decide, by decide, by decide, by decide, by decide⟩, rfl⟩

/-- The hypotheses of `StepKeepsInvariant`, `StepKeepsParameters` and `StepAlwaysAnswersNext`. -/
theorem witness_step_next :
    Inv (ready 0x01#32 0 64 1 0 0 []) ∧ ∃ t, step (ready 0x01#32 0 64 1 0 0 []) = .next t :=
  ⟨witness_inv_busy, _, rfl⟩

theorem witness_accepted_command :
    (hostNext (ready 0x01#32 0 64 1 0 0 []) .wait).busy = true ∧
      (∀ t ∈ (hostNext (ready 0x01#32 0 64 1 0 0 []) .wait).turns, t = .host ∨ t = .engine) ∧
      Inv (hostNext (ready 0x01#32 0 64 1 0 0 []) .wait) :=
  ⟨by decide, by decide, ⟨by decide, by decide, by decide, by decide, by decide, by decide, by decide, by decide⟩⟩

end Sys2Proof.Tests
end

section
/-! SUPPORT. The state family (10_state.md): a register access of the host as one step, and the registers after reset. -/

namespace Sys2Proof.Machine

/-! ## A register access as one step -/

theorem step_readReg {s : State} {k : BitVec 4} {rest : List HostAction} (h : hostMoves s (.readReg k) rest) :
    step s = .next { s with
      seen := .reg k (readSlot s k) :: s.seen, script := rest, turns := s.turns.tail } :=
  step_of_hostMoves h

theorem step_writeReg {s : State} {k : BitVec 4} {v : Word} {rest : List HostAction}
    (h : hostMoves s (.writeReg k v) rest) :
    step s = .next { writeSlot k v (useTurn s) with script := rest } :=
  step_of_hostMoves h

/-- A register write while a command is in flight is dropped, to whatever slot (60_exceptions.md R192). -/
theorem step_writeReg_of_busy {s : State} {k : BitVec 4} {v : Word} {rest : List HostAction}
    (h : hostMoves s (.writeReg k v) rest) (hb : s.busy = true) (hr : s.resetLine = false) :
    step s = .next { s with
      status := statusDropped s.status, script := rest, turns := s.turns.tail } := by
  rw [step_writeReg h, writeSlot_of_busy k v (useTurn s) hr hb]
  rfl

/-- STATUS (slot 1) and the slots from 7 on ignore idle writes (10_state.md R37). -/
theorem writeSlotIdle_of_readOnly (k : BitVec 4) (v : Word) (s : State) (hk : k = 1#4 ∨ 7 ≤ k.toNat) :
    writeSlotIdle k v s = s := by
  rcases writeSlotIdle_cases k v s with ⟨rfl, -⟩ | ⟨rfl, -⟩ | ⟨rfl, -⟩ | ⟨rfl, -⟩ | ⟨rfl, -⟩ | ⟨rfl, -⟩ | ⟨-, heq⟩
  case inr.inr.inr.inr.inr.inr => exact heq
  all_goals exact absurd hk (by decide)

/-- An idle write to a slot that ignores it uses up the host's action and its turn, and changes nothing else, whether or
not reset is asserted. -/
theorem step_writeReg_of_readOnly {s : State} {k : BitVec 4} {v : Word} {rest : List HostAction}
    (h : hostMoves s (.writeReg k v) rest) (hb : s.busy = false) (hk : k = 1#4 ∨ 7 ≤ k.toNat) :
    step s = .next { s with script := rest, turns := s.turns.tail } := by
  have hw : writeSlot k v (useTurn s) = useTurn s := by
    cases hr : s.resetLine with
    | true => exact writeSlot_of_reset k v (useTurn s) hr
    | false => rw [writeSlot_of_idle k v (useTurn s) hr hb, writeSlotIdle_of_readOnly k v (useTurn s) hk]
  rw [step_writeReg h, hw]
  rfl

/-! ## The registers after reset -/

/-- The stored registers and the reserved slots read 0 after reset; only NELEM (slot 8) and BUFSIZE (slot 9) read a
parameter (10_state.md R42). -/
theorem readSlot_resetWith (c : Config) (k : BitVec 4) (h8 : k.toNat ≠ 8) (h9 : k.toNat ≠ 9) :
    readSlot (State.resetWith c) k = 0#32 := by
  unfold readSlot
  split
  case h_9 h => exact absurd h h8
  case h_10 h => exact absurd h h9
  all_goals rfl

/-- A parameter within the bounds of 00_scope.md R7 fits a register word. -/
theorem toNat_ofNat_of_le_max {n : Nat} (h : n ≤ 2 ^ 32 - 1) : (BitVec.ofNat 32 n).toNat = n := by
  rw [BitVec.toNat_ofNat, Nat.mod_eq_of_lt (by omega)]

/-- NELEM reads `N_ELEMENTS` in every state (10_state.md R34). -/
theorem toNat_readSlot_nelem {s : State} (h : s.cfg.ok) : (readSlot s 8#4).toNat = s.cfg.nElements := by
  obtain ⟨⟨-, hn⟩, -, -⟩ := h
  exact toNat_ofNat_of_le_max hn

/-- BUFSIZE reads `BUF_BYTES` in every state (10_state.md R35). -/
theorem toNat_readSlot_bufsize {s : State} (h : s.cfg.ok) : (readSlot s 9#4).toNat = s.cfg.bufBytes := by
  obtain ⟨-, ⟨-, hb⟩, -⟩ := h
  exact toNat_ofNat_of_le_max hb

/-- Where no byte has been written since the last reset, every byte is that reset's draw (70_reset_and_hazards.md
R211). -/
theorem byteAt_of_buf_nil {s : State} (h : s.buf = []) (a : Nat) : s.byteAt a = Config.freeByte s.bufDraw a := by
  simp [State.byteAt, h]

/-! ## The statements of the family -/

/-- Settles O8: a read of a reserved slot gives 0, an idle write to it is ignored, a busy write is dropped as to any
other slot. -/
theorem reservedSlots : Obligations.ReservedSlots := by
  intro s k v rest hk
  refine ⟨fun h => ?_, fun h hb => ?_, fun h hb hr => ?_⟩
  · rw [step_readReg h, readSlot_of_reserved s k hk]
  · exact step_writeReg_of_readOnly h hb (.inr (by omega))
  · refine ⟨statusDropped s.status, step_writeReg_of_busy h hb hr, statusWerr_dropped s.status, fun j hj h2 => ?_⟩
    rw [getLsbD_statusDropped s.status j hj, if_neg h2]

/-- Settles O53: the register map read right after reset, in every configuration within the bounds. -/
theorem resetValues : Obligations.ResetValues := fun c hc =>
  ⟨readSlot_resetWith c, toNat_readSlot_nelem (s := State.resetWith c) hc,
    toNat_readSlot_bufsize (s := State.resetWith c) hc, rfl, byteAt_of_buf_nil rfl⟩

end Sys2Proof.Machine
end

section
/-! SUPPORT. The encoding family (30_encoding.md): the decoder answers a command exactly on that command's word, and
every command is one of the twelve of R90. -/

namespace Sys2Proof

open Machine

/-! ## The fields of a command's word -/

theorem encode_satisfies_encodeLegal (i : Instr) : Laws.EncodeLegal.Statement i := by
  cases i
  exacts [Laws.EncodeLegal.packT, Laws.EncodeLegal.packN, Laws.EncodeLegal.unpackT, Laws.EncodeLegal.unpackN,
    Laws.EncodeLegal.assembleT, Laws.EncodeLegal.assembleN, Laws.EncodeLegal.disassembleT,
    Laws.EncodeLegal.disassembleN, Laws.EncodeLegal.encodeT, Laws.EncodeLegal.encodeN, Laws.EncodeLegal.decodeT,
    Laws.EncodeLegal.decodeN]

theorem legalWord_encode (i : Instr) : legalWord (encode i) := (encode_satisfies_encodeLegal i).1

/-- Bit 4 of a word is its MODE field (30_encoding.md R81). -/
theorem getLsbD_four (v : Word) : v.getLsbD 4 = (wordMode v).getLsbD 0 := by
  simp [wordMode]

/-- MODE of a command's word selects the width (30_encoding.md R83). -/
theorem usableBits_modeOf_eq (i : Instr) :
    usableBits (modeOf i) = if (encode i).getLsbD 4 then 248 else 254 := by
  obtain ⟨-, -, -, hmode⟩ := encode_satisfies_encodeLegal i
  rw [getLsbD_four, hmode]
  cases modeOf i <;> rfl

/-- OP of a command's word selects the command (30_encoding.md R82). -/
theorem commandOf_of_wordOp_encode (i : Instr) :
    (wordOp (encode i) = 1#4 → commandOf i = .pack) ∧ (wordOp (encode i) = 2#4 → commandOf i = .unpack) ∧
    (wordOp (encode i) = 3#4 → commandOf i = .assemble) ∧ (wordOp (encode i) = 4#4 → commandOf i = .disassemble) ∧
    (wordOp (encode i) = 5#4 → commandOf i = .encode) ∧ (wordOp (encode i) = 6#4 → commandOf i = .decode) := by
  obtain ⟨-, -, hop, -⟩ := encode_satisfies_encodeLegal i
  rw [hop]
  cases commandOf i <;> decide

/-! ## Decoding -/

/-- The decoder looks only at OP of a word whose RSV is zero; there the six opcodes of R82 all have a command. -/
theorem decode_of_legalWord {v : Word} (h : legalWord v) : ∃ i, decode v = .ok i := by
  obtain ⟨hrsv, hlo, hhi⟩ := h
  change wordRsv v = 0#27 at hrsv
  change 1 ≤ (wordOp v).toNat at hlo
  change (wordOp v).toNat ≤ 6 at hhi
  unfold decode decodeFields
  rw [if_pos hrsv]
  generalize (wordOp v).toNat = n at hlo hhi
  interval_cases n <;> exact ⟨_, rfl⟩

theorem fields_of_byMode {mode : BitVec 1} {t n i : Instr} (h : byMode mode t n = i) :
    (mode = 0#1 ∧ i = t) ∨ (mode = 1#1 ∧ i = n) := by
  subst h
  unfold byMode
  split
  case isTrue h0 => exact .inl ⟨h0, rfl⟩
  case isFalse h0 => exact .inr ⟨by bv_omega, rfl⟩

/-- The decoder drops no bit: the fields it answers `i` on are those of `i`. -/
theorem fields_of_decodeFields {op : BitVec 4} {mode : BitVec 1} {rsv : BitVec 27} {i : Instr}
    (h : decodeFields op mode rsv = .ok i) : op = opcode i ∧ mode = modeBit i ∧ rsv = 0#27 := by
  unfold decodeFields at h
  split at h
  case isFalse => cases h
  case isTrue hrsv =>
    split at h
    case h_7 => cases h
    all_goals
      next hop =>
      obtain ⟨hm, rfl⟩ | ⟨hm, rfl⟩ := fields_of_byMode (Except.ok.inj h)
      all_goals exact ⟨BitVec.eq_of_toNat_eq hop, hm, hrsv⟩

theorem decode_encode (i : Instr) : decode (encode i) = .ok i := by
  simp only [decode, encode, wordOp_wordOfFields, wordMode_wordOfFields, wordRsv_wordOfFields]
  cases i <;> rfl

theorem eq_encode_of_decode {v : Word} {i : Instr} (h : decode v = .ok i) : v = encode i := by
  obtain ⟨hop, hmode, hrsv⟩ := fields_of_decodeFields h
  rw [← wordOfFields_fields v, hop, hmode, hrsv, encode]

theorem decode_of_not_legalWord {v : Word} (h : ¬ legalWord v) : ∃ e, decode v = .error e := by
  cases hd : decode v with
  | error e => exact ⟨e, rfl⟩
  | ok i => exact absurd (eq_encode_of_decode hd ▸ legalWord_encode i) h

/-! ## The twelve commands -/

/-- The commands in the order of the table of 30_encoding.md R90. -/
def commandTable : List Instr :=
  [.packT, .packN, .unpackT, .unpackN, .assembleT, .assembleN, .disassembleT, .disassembleN,
    .encodeT, .encodeN, .decodeT, .decodeN]

theorem mem_commandTable (i : Instr) : i ∈ commandTable := by cases i <;> decide

theorem decodes_iff_mem_map_encode (v : Word) : (∃ i, decode v = .ok i) ↔ v ∈ commandTable.map encode := by
  rw [List.mem_map]
  constructor
  · rintro ⟨i, h⟩
    exact ⟨i, mem_commandTable i, (eq_encode_of_decode h).symm⟩
  · rintro ⟨i, -, rfl⟩
    exact ⟨i, decode_encode i⟩

/-- R87 lists the legal words by MODE first, the table of R90 by OP first. -/
theorem legalWords_perm_map_encode :
    [0x00000001#32, 0x00000002#32, 0x00000003#32, 0x00000004#32, 0x00000005#32, 0x00000006#32,
      0x00000011#32, 0x00000012#32, 0x00000013#32, 0x00000014#32, 0x00000015#32, 0x00000016#32].Perm
      (commandTable.map encode) := by decide

theorem ofMnemonic_mnemonic (i : Instr) : ofMnemonic i.mnemonic = some i := by cases i <;> decide

theorem map_ofMnemonic_commandTable :
    ((commandTable.map Instr.mnemonic).map fun m => (ofMnemonic m).map encode) =
      (commandTable.map encode).map some := by
  simp only [List.map_map, List.map_inj_left, Function.comp_apply]
  intro i _
  rw [ofMnemonic_mnemonic, Option.map_some]

/-! ## The statements of the family -/

/-- Settles O1: a legal word decodes to a command, whose word it then is, so that its fields select command and width;
any other word is no command's word. -/
theorem decodingIsTotal : Obligations.DecodingIsTotal := by
  refine ⟨fun v => ?_, fun v => ?_⟩
  · split
    case isTrue hlegal =>
      obtain ⟨i, hd⟩ := decode_of_legalWord hlegal
      obtain rfl := eq_encode_of_decode hd
      exact ⟨i, hd, usableBits_modeOf_eq i, commandOf_of_wordOp_encode i⟩
    case isFalse hlegal => exact decode_of_not_legalWord hlegal
  · rw [legalWords_perm_map_encode.mem_iff]
    exact decodes_iff_mem_map_encode v

/-- Settles O4: the mnemonics and the words of R90 are those of the twelve commands, row by row. -/
theorem mnemonicsWriteTheirWords : Obligations.MnemonicsWriteTheirWords :=
  ⟨fun i => ⟨ofMnemonic_mnemonic i, rfl⟩, by decide, by decide, map_ofMnemonic_commandTable⟩

end Sys2Proof
end

section
/-! SUPPORT. The packer family (40_packer.md): chunks and payloads compared through their bit streams, and the
accumulator formulation of R112. -/

namespace Sys2Proof.Machine

/-! ## MODULUS is read by no command (40_packer.md R107) -/

/-- The same machine built with another MODULUS. -/
def withModulus (q : Nat) (s : State) : State := { s with cfg := { s.cfg with modulus := q } }

theorem settleHazard_of_hazard (src dst : Range) (s : State) (h : s.hazard = true) :
    settleHazard src dst s =
      { memWrite dst.base (drawRange s.draws s.cfg.bufBytes dst)
          (memWrite src.base (drawRange s.draws s.cfg.bufBytes src) s) with draws := s.draws + 1 } := by
  rw [settleHazard, if_pos h]

theorem settleHazard_withModulus (a b : Range) (q : Nat) (s : State) :
    settleHazard a b (withModulus q s) = withModulus q (settleHazard a b s) := by
  cases hz : s.hazard with
  | false => rw [settleHazard_of_not_hazard a b s hz, settleHazard_of_not_hazard a b (withModulus q s) hz]
  | true => rw [settleHazard_of_hazard a b s hz, settleHazard_of_hazard a b (withModulus q s) hz]; rfl

theorem commandError_withModulus (c : Command) (m : Mode) (q : Nat) (s : State) (l : Latch) :
    commandError c m (withModulus q s).cfg l = commandError c m s.cfg l := commandError_modulus c m s.cfg l q

theorem srcRange_withModulus (c : Command) (q : Nat) (s : State) (l : Latch) :
    srcRange c (withModulus q s).cfg l = srcRange c s.cfg l := by cases c <;> rfl

theorem dstRange_withModulus (c : Command) (m : Mode) (q : Nat) (s : State) (l : Latch) :
    dstRange c m (withModulus q s).cfg l = dstRange c m s.cfg l := by cases c <;> rfl

theorem effectOf_withModulus (c : Command) (m : Mode) (l : Latch) (q : Nat) (s : State) :
    effectOf c m l (withModulus q s) = withModulus q (effectOf c m l s) := by cases c <;> rfl

theorem exec_withModulus {i : Instr} {s t : State} (q : Nat) (h : exec i s = .next t) :
    exec i (withModulus q s) = .next (withModulus q t) := by
  obtain ⟨l, hl, rfl⟩ := exec_cases h
  rw [exec_of_latch i (withModulus q s) l hl, commandError_withModulus, srcRange_withModulus, dstRange_withModulus,
    effectOf_withModulus, ← apply_ite, settleHazard_withModulus]
  rfl

/-! ## Byte 0 of a field element (40_packer.md R105, R107) -/

/-- Byte 0 is bits [255:248]: a value of `248 + k` bits leaves `k` bits to it. -/
theorem toNat_getD_beBytes32_zero_lt {v : FieldElement} {k : Nat} (h : v.toNat < 2 ^ (248 + k)) :
    ((beBytes32 v).getD 0 0#8).toNat < 2 ^ k := by
  have hdiv : v.toNat / 2 ^ 248 < 2 ^ k := Nat.div_lt_of_lt_mul (by rwa [← Nat.pow_add])
  rw [List.getD_eq_getElem _ _ (by simp), getElem_beBytes32, BitVec.extractLsb'_toNat, Nat.shiftRight_eq_div_pow]
  exact (Nat.mod_le _ _).trans_lt hdiv

theorem toNat_lt_of_mem_pack {p : List Byte} {w : Nat} {v : FieldElement} (h : v ∈ pack p w) : v.toNat < 2 ^ w := by
  obtain ⟨j, hj, rfl⟩ := List.mem_iff_getElem.1 h
  exact toNat_pack_lt p w j hj

/-! ## Lists compared position by position -/

/-- Streams of one length are equal when their bits are, zero bits standing past the end as everywhere. -/
theorem bits_ext {s t : List Bool} (hlen : s.length = t.length)
    (h : ∀ n, n < s.length → s.getD n false = t.getD n false) : s = t := by
  refine List.ext_getElem hlen fun n h1 h2 => ?_
  rw [← List.getD_eq_getElem s false h1, ← List.getD_eq_getElem t false h2]
  exact h n h1

/-- Bytes given one after the other, and each bit by bit. -/
theorem bytes_eq_map_range {q : List Byte} {len : Nat} {f : Nat → Byte} (hlen : q.length = len)
    (h : ∀ i k, i < len → k < 8 → (q.getD i 0#8).getLsbD (7 - k) = (f i).getLsbD (7 - k)) :
    q = (List.range len).map f := by
  refine List.ext_getElem (by simp [hlen]) fun i h1 h2 => byte_eq_of_streamBits fun k hk => ?_
  have hi := h i k (hlen ▸ h1) hk
  rw [List.getD_eq_getElem q _ h1] at hi
  simpa using hi

/-! ## unpack as a function of the chunks' stream (40_packer.md R108 to R110) -/

theorem length_take_chunkBits_of_le {cs : List FieldElement} {w bitlen : Nat} (h : bitlen ≤ cs.length * w) :
    ((cs.flatMap (lowBits w)).take bitlen).length = bitlen :=
  List.length_take_of_le (by rwa [length_chunkBits, Nat.mul_comm])

/-- `unpack` cannot tell apart chunks that give the same bits below `bitlen`. -/
theorem unpack_congr {cs ds : List FieldElement} {w bitlen : Nat} (hw : 0 < w) (hc : bitlen ≤ cs.length * w)
    (hd : bitlen ≤ ds.length * w)
    (h : ∀ n, n < bitlen →
      (cs.getD (n / w) 0#256).getLsbD (w - 1 - n % w) = (ds.getD (n / w) 0#256).getLsbD (w - 1 - n % w)) :
    unpack cs w bitlen = unpack ds w bitlen := by
  have hlen := length_take_chunkBits_of_le hc
  have hbits : (cs.flatMap (lowBits w)).take bitlen = (ds.flatMap (lowBits w)).take bitlen := by
    refine bits_ext (hlen.trans (length_take_chunkBits_of_le hd).symm) fun n hn => ?_
    have hn' : n < bitlen := hlen ▸ hn
    have hbit := h n hn'
    rw [← getD_chunkBits w hw, ← getD_chunkBits w hw] at hbit
    simpa only [List.getD_eq_getElem?_getD, List.getElem?_take, hn', if_true] using hbit
  rw [unpack_eq_ok cs w bitlen hc, unpack_eq_ok ds w bitlen hd, hbits]

theorem le_of_unpack_eq_ok {cs : List FieldElement} {w bitlen : Nat} {q : List Byte}
    (h : unpack cs w bitlen = .ok q) : bitlen ≤ cs.length * w := by
  by_contra hlt
  rw [(unpack_eq_error_iff cs w bitlen .lengthMismatch).2 ⟨rfl, Nat.not_le.1 hlt⟩] at h
  cases h

/-! ## pack as a function into streams (40_packer.md R102, R113) -/

/-- The windows of `pack`, one after the other, are the padded stream. -/
theorem chunkBits_pack (p : List Byte) {w : Nat} (hw : 0 < w) (hw' : w ≤ 256) :
    (pack p w).flatMap (lowBits w) = padded p w := by
  have hlen : ((pack p w).flatMap (lowBits w)).length = (padded p w).length := by
    rw [length_chunkBits, length_pack, length_padded p w hw, Nat.mul_comm]
  refine bits_ext hlen fun n hn => ?_
  have hj : n / w < (pack p w).length := by
    rw [length_chunkBits] at hn
    exact Nat.div_lt_of_lt_mul hn
  have hr : n % w < w := Nat.mod_lt n hw
  have hpos : n / w * w + (w - 1 - (w - 1 - n % w)) = n := by
    have := Nat.div_add_mod' n w
    omega
  rw [getD_chunkBits w hw, getD_padded, getD_bitstream, List.getD_eq_getElem _ _ hj, getLsbD_pack p w _ _ hw hw' hj,
    hpos, decide_eq_true (by omega), Bool.true_and]

theorem bytesOfBits_bitstream (p : List Byte) : bytesOfBits (bitstream p) = p := by
  induction p with
  | nil => rfl
  | cons b p ih =>
    have hcons : bitstream (b :: p) = bitsOfByte b ++ bitstream p := List.flatMap_cons
    rw [hcons, bytesOfBits_cons8 _ _ (length_bitsOfByte b), ih, natOfBits_bitsOfByte]
    simp

theorem unpack_pack (p : List Byte) {w : Nat} (hw : 0 < w) (hw' : w ≤ 256) :
    unpack (pack p w) w (8 * p.length) = .ok p := by
  have hle : 8 * p.length ≤ (pack p w).length * w := by
    rw [length_pack]
    exact eight_mul_le_chunkCount_mul p.length w hw
  rw [unpack_eq_ok _ _ _ hle, chunkBits_pack p hw hw', padded, List.take_left' (length_bitstream p),
    bytesOfBits_bitstream]

/-! ## Naive mode (40_packer.md R111) -/

theorem beBytes32_eq_cons (v : FieldElement) :
    beBytes32 v = v.extractLsb' 248 8 :: (List.range 31).map fun k => v.extractLsb' (8 * (30 - k)) 8 := by
  rw [beBytes32, List.range_succ_eq_map, List.map_cons, List.map_map]
  refine congrArg _ (List.map_congr_left fun k _ => ?_)
  rw [Function.comp_apply, show 31 - (k + 1) = 30 - k by omega]

/-- Byte `1 + k` of chunk `j` is byte `31*j + k` of the payload: a window of 248 bits is 31 whole bytes. -/
theorem extractLsb'_pack_naive (p : List Byte) (j k : Nat) (hj : j < (pack p 248).length) (hk : k < 31) :
    (pack p 248)[j].extractLsb' (8 * (30 - k)) 8 = p.getD (31 * j + k) 0x00#8 := by
  refine byte_eq_of_streamBits fun b hb => ?_
  have hi : 8 * (30 - k) + (7 - b) < 248 := by omega
  have hq : (j * 248 + (248 - 1 - (8 * (30 - k) + (7 - b)))) / 8 = 31 * j + k := by omega
  have hr : (j * 248 + (248 - 1 - (8 * (30 - k) + (7 - b)))) % 8 = b := by omega
  rw [BitVec.getLsbD_extractLsb', decide_eq_true (by omega), Bool.true_and,
    getLsbD_pack p 248 j _ (by omega) (by omega) hj, decide_eq_true hi, Bool.true_and, hq, hr]

theorem beBytes32_pack_naive (p : List Byte) (j : Nat) (hj : j < (pack p 248).length) :
    beBytes32 (pack p 248)[j] = 0x00#8 :: (List.range 31).map fun k => p.getD (31 * j + k) 0x00#8 := by
  have htop : (pack p 248)[j].extractLsb' 248 8 = 0x00#8 := by
    refine BitVec.eq_of_getLsbD_eq fun b hb => ?_
    rw [BitVec.getLsbD_extractLsb', getLsbD_pack p 248 j _ (by omega) (by omega) hj,
      decide_eq_false (show ¬ 248 + b < 248 by omega)]
    simp
  rw [beBytes32_eq_cons, htop]
  exact congrArg _ (List.map_congr_left fun k hk => extractLsb'_pack_naive p j k hj (List.mem_range.1 hk))

theorem unpack_naive {cs : List FieldElement} {len : Nat} {q : List Byte} (h : unpack cs 248 (8 * len) = .ok q) :
    q = (List.range len).map fun i => (beBytes32 (cs.getD (i / 31) 0#256)).getD (1 + i % 31) 0#8 := by
  have hle := le_of_unpack_eq_ok h
  have hlen := length_okBytes_unpack cs 248 len hle
  rw [h] at hlen
  refine bytes_eq_map_range hlen fun i k hi hk => ?_
  have hbit := getLsbD_unpack cs 248 len (by omega) hle i k hi hk
  rw [h] at hbit
  refine hbit.trans ?_
  have hq : (8 * i + k) / 248 = i / 31 := by omega
  have hr : 248 - 1 - (8 * i + k) % 248 = 8 * (31 - (1 + i % 31)) + (7 - k) := by omega
  rw [getLsbD_getD_beBytes32 _ _ _ (by omega) (by omega), hq, hr]

/-! ## The accumulator formulation (40_packer.md R112) -/

theorem getD_lowBits {w k : Nat} (d : FieldElement) (hk : k < w) :
    (lowBits w d).getD k false = d.getLsbD (w - 1 - k) := by
  simp [lowBits, hk]

/-- A window written as a chunk and read back. -/
theorem lowBits_ofNat_natOfBits {x : List Bool} {w : Nat} (hx : x.length = w) (hw : w ≤ 256) :
    lowBits w (BitVec.ofNat 256 (natOfBits x)) = x := by
  subst hx
  refine bits_ext (length_lowBits _ _) fun k hk => ?_
  rw [length_lowBits] at hk
  have hback : x.length - 1 - (x.length - 1 - k) = k := by omega
  rw [getD_lowBits _ hk, BitVec.getLsbD_ofNat, testBit_natOfBits, decide_eq_true (by omega), decide_eq_true (by omega),
    Bool.true_and, Bool.true_and, hback]

theorem toNat_ofNat_natOfBits_lt (x : List Bool) : (BitVec.ofNat 256 (natOfBits x)).toNat < 2 ^ x.length := by
  rw [BitVec.toNat_ofNat]
  exact (Nat.mod_le _ _).trans_lt (natOfBits_lt x)

theorem eq_of_lowBits_eq {w : Nat} {c d : FieldElement} (hc : c.toNat < 2 ^ w) (hd : d.toNat < 2 ^ w)
    (h : lowBits w c = lowBits w d) : c = d := by
  refine BitVec.eq_of_getLsbD_eq fun i _ => ?_
  by_cases hi : i < w
  · have hbit := congrArg (fun bits => bits.getD (w - 1 - i) false) h
    simp only [getD_lowBits _ (show w - 1 - i < w by omega)] at hbit
    rwa [show w - 1 - (w - 1 - i) = i by omega] at hbit
  · have hpow : 2 ^ w ≤ 2 ^ i := Nat.pow_le_pow_right (by omega) (by omega)
    rw [BitVec.getLsbD, BitVec.getLsbD, Nat.testBit_lt_two_pow (hc.trans_le hpow),
      Nat.testBit_lt_two_pow (hd.trans_le hpow)]

/-- Chunks of `w` bits are determined by their stream. -/
theorem chunks_eq_of_chunkBits_eq {w : Nat} (hw : 0 < w) : ∀ {cs ds : List FieldElement},
    (∀ c ∈ cs, c.toNat < 2 ^ w) → (∀ d ∈ ds, d.toNat < 2 ^ w) →
    cs.flatMap (lowBits w) = ds.flatMap (lowBits w) → cs = ds
  | [], [], _, _, _ => rfl
  | [], d :: ds, _, _, h | d :: ds, [], _, _, h => by
    have hlen := congrArg List.length h
    simp only [length_chunkBits, List.length_nil, List.length_cons, Nat.mul_add] at hlen
    omega
  | c :: cs, d :: ds, hc, hd, h => by
    rw [List.flatMap_cons, List.flatMap_cons] at h
    obtain ⟨hhead, htail⟩ := List.append_inj h (by simp)
    rw [eq_of_lowBits_eq (hc c (by simp)) (hd d (by simp)) hhead,
      chunks_eq_of_chunkBits_eq hw (fun e he => hc e (by simp [he])) (fun e he => hd e (by simp [he])) htail]

/-- The accumulator's state with the chunks `out` put out and the bits `r` pending. -/
def accState (out : List FieldElement) (r : List Bool) : Nat × Nat × List FieldElement := (natOfBits r, r.length, out)

theorem natOfBits_append_bitsOfByte (r : List Bool) (b : Byte) :
    natOfBits (r ++ bitsOfByte b) = natOfBits r * 256 + b.toNat := by
  rw [natOfBits_append, length_bitsOfByte, natOfBits_bitsOfByte]; rfl

/-- A byte that does not fill a window is pending. -/
theorem packAccByte_of_lt {w : Nat} (out : List FieldElement) {r : List Bool} (b : Byte) (h : r.length + 8 < w) :
    packAccByte w (accState out r) b = accState out (r ++ bitsOfByte b) := by
  have hn : ¬ r.length + 8 ≥ w := Nat.not_le.2 h
  simp only [packAccByte, accState, hn, if_false, natOfBits_append_bitsOfByte, List.length_append,
    length_bitsOfByte]

/-- A byte that fills the window `x` and leaves the bits `r'` puts out `x` and leaves `r'` pending. -/
theorem packAccByte_of_window {w : Nat} (out : List FieldElement) {r x r' : List Bool} {b : Byte}
    (h : r ++ bitsOfByte b = x ++ r') (hx : x.length = w) :
    packAccByte w (accState out r) b = accState (out ++ [BitVec.ofNat 256 (natOfBits x)]) r' := by
  have hlen : r.length + 8 = w + r'.length := by simpa [hx] using congrArg List.length h
  have hnum : natOfBits r * 256 + b.toNat = natOfBits r' + 2 ^ r'.length * natOfBits x := by
    rw [← natOfBits_append_bitsOfByte, h, natOfBits_append, Nat.add_comm, Nat.mul_comm]
  have hlow : natOfBits r' < 2 ^ r'.length := natOfBits_lt r'
  simp only [packAccByte, accState, hlen, if_pos (Nat.le_add_right w _), Nat.add_sub_cancel_left, hnum,
    Nat.add_mul_mod_self_left, Nat.mod_eq_of_lt hlow, Nat.add_mul_div_left _ _ (Nat.two_pow_pos _),
    Nat.div_eq_of_lt hlow, Nat.zero_add]

/-- The chunks `out` and the pending bits `r`, fewer than a window, are together the stream of `p`. -/
structure AccHolds (w : Nat) (p : List Byte) (out : List FieldElement) (r : List Bool) : Prop where
  pending_lt : r.length < w
  chunks_lt : ∀ c ∈ out, c.toNat < 2 ^ w
  stream_eq : out.flatMap (lowBits w) ++ r = bitstream p

theorem toNat_lt_of_mem_append_window {w : Nat} {out : List FieldElement} {x : List Bool} (hx : x.length = w)
    (hout : ∀ c ∈ out, c.toNat < 2 ^ w) : ∀ c ∈ out ++ [BitVec.ofNat 256 (natOfBits x)], c.toNat < 2 ^ w := by
  intro c hc
  rcases List.mem_append.1 hc with hc | hc
  · exact hout c hc
  · rw [List.mem_singleton.1 hc, ← hx]
    exact toNat_ofNat_natOfBits_lt x

theorem chunkBits_append_window {w : Nat} (out : List FieldElement) {x : List Bool} (hx : x.length = w)
    (hw : w ≤ 256) :
    (out ++ [BitVec.ofNat 256 (natOfBits x)]).flatMap (lowBits w) = out.flatMap (lowBits w) ++ x := by
  rw [List.flatMap_append, List.flatMap_singleton, lowBits_ofNat_natOfBits hx hw]

/-- One more byte; at most one window is put out, since a window is no shorter than a byte. -/
theorem accHolds_packAccByte {w : Nat} {p : List Byte} {out : List FieldElement} {r : List Bool}
    (hw : 8 ≤ w) (hw' : w ≤ 256) (h : AccHolds w p out r) (b : Byte) :
    ∃ out' r', packAccByte w (accState out r) b = accState out' r' ∧ AccHolds w (p ++ [b]) out' r' := by
  obtain ⟨hlt, hout, hstream⟩ := h
  have hlen : (r ++ bitsOfByte b).length = r.length + 8 := by simp
  have hstream' : out.flatMap (lowBits w) ++ (r ++ bitsOfByte b) = bitstream (p ++ [b]) := by
    rw [bitstream_append_singleton, ← hstream, List.append_assoc]
  by_cases hn : r.length + 8 < w
  · exact ⟨out, r ++ bitsOfByte b, packAccByte_of_lt out b hn, hlen ▸ hn, hout, hstream'⟩
  · have hsplit := (List.take_append_drop w (r ++ bitsOfByte b)).symm
    have hx : ((r ++ bitsOfByte b).take w).length = w := List.length_take_of_le (by omega)
    refine ⟨_, _, packAccByte_of_window out hsplit hx, ?_, toNat_lt_of_mem_append_window hx hout, ?_⟩
    · rw [List.length_drop, hlen]
      omega
    · rw [chunkBits_append_window out hx hw', List.append_assoc, ← hsplit, hstream']

theorem accHolds_foldl {w : Nat} (hw : 8 ≤ w) (hw' : w ≤ 256) (p : List Byte) :
    ∃ out r, p.foldl (packAccByte w) (0, 0, []) = accState out r ∧ AccHolds w p out r := by
  induction p using List.reverseRecOn with
  | nil => exact ⟨[], [], rfl, show 0 < w by omega, by simp, rfl⟩
  | append_singleton p b ih =>
    obtain ⟨out, r, hfold, hholds⟩ := ih
    obtain ⟨out', r', hstep, hholds'⟩ := accHolds_packAccByte hw hw' hholds b
    exact ⟨out', r', by rw [List.foldl_append, hfold, List.foldl_cons, List.foldl_nil, hstep], hholds'⟩

theorem natOfBits_append_replicate_false (r : List Bool) (k : Nat) :
    natOfBits (r ++ List.replicate k false) = natOfBits r * 2 ^ k := by
  have hzero : natOfBits (List.replicate k false) = 0 := by
    refine Nat.eq_of_testBit_eq fun i => ?_
    rw [testBit_natOfBits, List.getD_eq_getElem?_getD, List.getElem?_getD_replicate_default_eq, Bool.and_false,
      Nat.zero_testBit]
  rw [natOfBits_append, hzero, List.length_replicate, Nat.add_zero]

/-- The end of the algorithm: pending bits make a last window, filled up with zero bits. -/
theorem packAcc_of_foldl {p : List Byte} {w : Nat} {out : List FieldElement} {r : List Bool}
    (h : p.foldl (packAccByte w) (0, 0, []) = accState out r) :
    packAcc p w =
      if r = [] then out
      else out ++ [BitVec.ofNat 256 (natOfBits (r ++ List.replicate (w - r.length) false))] := by
  simp only [packAcc, h, accState, natOfBits_append_replicate_false]
  cases r <;> simp

/-- Whole windows that hold the stream with fewer than `w` zero bits after it are the padded stream: no other number of
padding bits fits (40_packer.md R102). -/
theorem padded_eq_of_length {p : List Byte} {w m k : Nat} (hk : k < w) (h : m * w = 8 * p.length + k) :
    padded p w = bitstream p ++ List.replicate k false := by
  have hw : 0 < w := by omega
  have hle : chunkCount p.length w ≤ m := (ceilDiv_le_iff _ _ _ hw).2 (by omega)
  have hge : m ≤ chunkCount p.length w := by
    by_contra hlt
    have hm : chunkCount p.length w + 1 ≤ m := by omega
    have hmul := Nat.mul_le_mul_right w hm
    have hfit := eight_mul_le_chunkCount_mul p.length w hw
    rw [Nat.add_mul, Nat.one_mul] at hmul
    omega
  have hm : chunkCount p.length w = m := Nat.le_antisymm hle hge
  rw [padded, hm, h, Nat.add_sub_cancel_left]

/-- Chunks of `w` bits whose stream is the payload's followed by fewer than `w` zero bits are `pack`'s. -/
theorem eq_pack_of_chunkBits {p : List Byte} {w k : Nat} {cs : List FieldElement} (hw' : w ≤ 256) (hk : k < w)
    (hlt : ∀ c ∈ cs, c.toNat < 2 ^ w) (h : cs.flatMap (lowBits w) = bitstream p ++ List.replicate k false) :
    cs = pack p w := by
  have hlen := congrArg List.length h
  rw [length_chunkBits, List.length_append, length_bitstream, List.length_replicate, Nat.mul_comm] at hlen
  have hw : 0 < w := by omega
  refine chunks_eq_of_chunkBits_eq hw hlt (fun c hc => toNat_lt_of_mem_pack hc) ?_
  rw [h, chunkBits_pack p hw hw', padded_eq_of_length hk hlen]

theorem packAcc_eq_pack (p : List Byte) {w : Nat} (hw : 8 ≤ w) (hw' : w ≤ 256) : packAcc p w = pack p w := by
  obtain ⟨out, r, hfold, hlt, hout, hstream⟩ := accHolds_foldl hw hw' p
  rw [packAcc_of_foldl hfold]
  split
  case isTrue hr =>
    refine eq_pack_of_chunkBits (k := 0) hw' (by omega) hout ?_
    rw [← hstream, hr, List.replicate_zero, List.append_nil, List.append_nil]
  case isFalse hr =>
    have hpos : 0 < r.length := List.length_pos_iff.2 hr
    have hx : (r ++ List.replicate (w - r.length) false).length = w := by
      rw [List.length_append, List.length_replicate]
      omega
    refine eq_pack_of_chunkBits (k := w - r.length) hw' (by omega) (toNat_lt_of_mem_append_window hx hout) ?_
    rw [chunkBits_append_window out hx hw', ← List.append_assoc, hstream]

/-! ## The statements of the family -/

/-- Settles O42: before and after every byte, the chunks and the pending bits of the accumulator are the stream read so
far, so that its chunks at the end have `pack`'s stream. -/
theorem accumulatorComputesPack : Obligations.AccumulatorComputesPack :=
  fun p _ hw => packAcc_eq_pack p (by omega) (by omega)

/-- Settles O35: a chunk is at most 254 bits wide, which leaves byte 0 at most 6 bits, and the frame of the commands
does not read MODULUS. -/
theorem chunksBelowModulus : Obligations.ChunksBelowModulus := by
  refine ⟨fun p m c hc v hv => ?_, fun p v hv => ?_, fun p v hv => ?_, fun i s t q h => exec_withModulus q h⟩
  · obtain ⟨-, -, hmod⟩ := hc
    exact ⟨toNat_lt_of_mem_pack hv, Nat.pow_le_pow_right (by omega) (usableBits_le m), hmod⟩
  · have hlt := toNat_getD_beBytes32_zero_lt (k := 6) (toNat_lt_of_mem_pack hv)
    omega
  · have hlt := toNat_getD_beBytes32_zero_lt (k := 0) (toNat_lt_of_mem_pack hv)
    exact BitVec.eq_of_toNat_eq (by simpa using hlt)

/-- Settles O37: the law of the bits of `pack`, read from the most significant bit down. -/
theorem packBits : Obligations.PackBits := by
  intro p w hw
  refine ⟨length_pack p w, fun j c hc => ?_⟩
  obtain ⟨hj, rfl⟩ := List.getElem?_eq_some_iff.1 hc
  refine ⟨fun k hk => ?_, fun b hb => ?_⟩
  · have hback : w - 1 - (w - 1 - k) = k := by omega
    rw [getLsbD_pack p w j _ (by omega) (by omega) hj, decide_eq_true (by omega), Bool.true_and, hback]
    split
    case isTrue => rfl
    case isFalse hpast =>
      rw [List.getD_eq_default _ _ (by omega), BitVec.getLsbD_zero]
  · rw [getLsbD_pack p w j _ (by omega) (by omega) hj, decide_eq_false (by omega), Bool.false_and]

/-- Settles O38: the one error of `unpack`, and the bits of its bytes otherwise. -/
theorem unpackBits : Obligations.UnpackBits := by
  intro cs w len hw
  refine ⟨fun bitlen hlt => (unpack_eq_error_iff cs w bitlen _).2 ⟨rfl, hlt⟩, fun hle => ?_⟩
  have hok := unpack_eq_ok cs w (8 * len) hle
  have hlen := length_okBytes_unpack cs w len hle
  have hbits := getLsbD_unpack cs w len (by omega) hle
  rw [hok] at hlen hbits
  exact ⟨_, hok, hlen, hbits⟩

/-- Settles O39: the two lists fail alike, and otherwise `unpack` looks only at bits below `w`. -/
theorem unpackIgnoresHighBits : Obligations.UnpackIgnoresHighBits := by
  intro cs ds w bitlen hw hlen h
  have hw0 : 0 < w := by omega
  by_cases hle : bitlen ≤ cs.length * w
  · exact unpack_congr hw0 hle (hlen ▸ hle) fun n _ => h _ _ (by omega)
  · rw [(unpack_eq_error_iff cs w bitlen _).2 ⟨rfl, by omega⟩,
      (unpack_eq_error_iff ds w bitlen _).2 ⟨rfl, by rw [← hlen]; omega⟩]

/-- Settles O40: both lists hold enough bits, and the bits `unpack` takes agree. -/
theorem unpackUsesPrefix : Obligations.UnpackUsesPrefix := by
  intro cs ds w len hw hc hd h
  have hok := unpack_eq_ok cs w (8 * len) hc
  exact ⟨_, hok, (unpack_congr (by omega) hc hd h).symm.trans hok⟩

/-- Settles O41: a window of 248 bits is 31 whole bytes, in both directions. -/
theorem naiveIsByteAligned : Obligations.NaiveIsByteAligned := by
  refine ⟨fun p j c hc => ?_, fun cs len q h => unpack_naive h⟩
  obtain ⟨hj, rfl⟩ := List.getElem?_eq_some_iff.1 hc
  exact beBytes32_pack_naive p j hj

/-- Settles O43: the chunks' stream begins with the payload's. -/
theorem packUnpackRoundTrip : Obligations.PackUnpackRoundTrip :=
  fun p w hw => ⟨length_pack p w, unpack_pack p (by omega) (by omega)⟩

end Sys2Proof.Machine
end

section
/-! SUPPORT. The assembler family (41_assembler.md R140 to R149): which element of which blob each position is, the
composed round trip, and that ASSEMBLE and DISASSEMBLE read no mode. -/

namespace Sys2Proof.Machine

/-! ## The number of blobs (41_assembler.md R142) -/

theorem blobCount_le_iff {n m q : Nat} (hn : 0 < n) (hq : 0 < q) : blobCount n m ≤ q ↔ m ≤ q * n := by
  rw [blobCount, max_le_iff, ceilDiv_le_iff m n q hn, and_iff_right (Nat.succ_le_of_lt hq)]

/-- A blob is full before the next one begins. -/
theorem blobCount_eq_succ_iff {n m q : Nat} (hn : 0 < n) (hq : 0 < q) :
    blobCount n m = q + 1 ↔ q * n < m ∧ m ≤ (q + 1) * n := by
  rw [← blobCount_le_iff hn q.succ_pos, ← not_le, ← blobCount_le_iff hn hq]
  omega

theorem blobCount_eq_one_iff {n m : Nat} (hn : 0 < n) : blobCount n m = 1 ↔ m ≤ n := by
  have hle := blobCount_le_iff (m := m) hn Nat.one_pos
  have hpos := blobCount_pos n m
  omega

/-! ## The elements of blobs (41_assembler.md R140, R143) -/

/-- A position past the last chunk is a zero element (41_assembler.md R141). -/
theorem getElem?_of_getElem?_assemble {n : Nat} {cs : List FieldElement} {b i : Nat} {blob : Blob}
    (h : (assemble n cs)[b]? = some blob) (hi : i < n) : blob[i]? = some (cs.getD (n * b + i) 0#256) := by
  obtain ⟨hb, rfl⟩ := List.getElem?_eq_some_iff.1 h
  rw [getElem_assemble, List.getElem?_map, List.getElem?_range hi, Option.map_some]

/-- Pairing each blob with its membership lets the laws of blocks of one size speak of the blobs of one list. -/
theorem flatten_eq_flatMap_attach (blobs : List Blob) : blobs.flatten = blobs.attach.flatMap Subtype.val := by
  rw [List.flatMap_def, List.attach_map_subtype_val]

theorem length_flatten_blobs {n : Nat} {blobs : List Blob} (h : ∀ b ∈ blobs, b.length = n) :
    blobs.flatten.length = n * blobs.length := by
  rw [flatten_eq_flatMap_attach, length_flatMap_const Subtype.val n (fun b => h b.1 b.2), List.length_attach]

/-- Element `e` of all blobs is element `e mod n` of blob `e div n`. -/
theorem getElem?_flatten_blobs {n : Nat} {blobs : List Blob} (hn : 0 < n) (h : ∀ b ∈ blobs, b.length = n) (e : Nat) :
    blobs.flatten[e]? = blobs[e / n]?.bind fun b => b[e % n]? := by
  have hmap : blobs[e / n]? = blobs.attach[e / n]?.map Subtype.val := by
    rw [← List.getElem?_map, List.attach_map_subtype_val]
  rw [flatten_eq_flatMap_attach, getElem?_flatMap_const Subtype.val n hn (fun b => h b.1 b.2), hmap, Option.bind_map]
  rfl

/-! ## Framing and unframing (41_assembler.md R148) -/

/-- The blobs of `assemble` hold all the chunks, first and in order. -/
theorem disassemble_assemble {n : Nat} (hn : 0 < n) (cs : List FieldElement) (w : Nat) :
    disassemble n (assemble n cs) w cs.length = .ok cs := by
  rw [disassemble_eq_ok _ _ _ _ (by simpa using le_mul_blobCount n cs.length hn), take_flatten_assemble n hn]

theorem decodeBlobs_assemble {n len w : Nat} {cs : List FieldElement} (hn : 0 < n) (h : cs.length = chunkCount len w) :
    decodeBlobs n (assemble n cs) w len = unpack cs w (8 * len) := by
  rw [decodeBlobs, ← h, disassemble_assemble hn]

/-! ## The mode of the framing commands (41_assembler.md R145) -/

/-- The two commands that move whole field elements and never look inside one. -/
def isFraming (c : Command) : Prop := c = .assemble ∨ c = .disassemble

theorem dstRange_of_isFraming {c : Command} (hc : isFraming c) (m m' : Mode) (cfg : Config) (l : Latch) :
    dstRange c m cfg l = dstRange c m' cfg l := by obtain rfl | rfl := hc <;> rfl

theorem commandError_of_isFraming {c : Command} (hc : isFraming c) (m m' : Mode) (cfg : Config) (l : Latch) :
    commandError c m cfg l = commandError c m' cfg l := by obtain rfl | rfl := hc <;> rfl

theorem effectOf_of_isFraming {c : Command} (hc : isFraming c) (m m' : Mode) (l : Latch) (s : State) :
    effectOf c m l s = effectOf c m' l s := by obtain rfl | rfl := hc <;> rfl

/-- The checks, the destination and the effect are the same in both modes, and so is the outcome. -/
theorem exec_eq_of_isFraming {i j : Instr} (hi : isFraming (commandOf i)) (hij : commandOf j = commandOf i)
    (s : State) : exec i s = exec j s := by
  cases hl : s.latch with
  | none =>
    rw [exec_eq_runCommand, exec_eq_runCommand, runCommand_of_no_latch _ _ _ _ hl, runCommand_of_no_latch _ _ _ _ hl]
  | some l =>
    rw [exec_of_latch i s l hl, exec_of_latch j s l hl, hij, commandError_of_isFraming hi (modeOf i) (modeOf j),
      dstRange_of_isFraming hi (modeOf i) (modeOf j), effectOf_of_isFraming hi (modeOf i) (modeOf j)]

/-! ## The statements about the assembler -/

/-- Settles O30: neither framing command reads its mode, and `disassemble` never reads its width. -/
theorem framingIgnoresMode : Obligations.FramingIgnoresMode :=
  ⟨exec_eq_of_isFraming (.inl rfl) rfl, exec_eq_of_isFraming (.inr rfl) rfl, fun _ _ _ _ _ => rfl⟩

/-- Settles O45: the number of blobs, their size and their elements. -/
theorem assembleFrames : Obligations.AssembleFrames := by
  intro n cs hn
  refine ⟨length_assemble n cs, length_of_mem_assemble n cs, fun b i blob hb hi => ?_, fun h => ?_, fun h => ?_,
    fun h => ?_⟩
  · rw [getElem?_of_getElem?_assemble hb hi]
    split
    case isTrue hlt => rw [List.getD_eq_getElem _ _ hlt]
    case isFalse hpast => rw [List.getD_eq_default _ _ (by omega)]
  · rw [length_assemble, h, blobCount_eq_one_iff hn]
    exact Nat.zero_le n
  · rw [length_assemble, h, blobCount_eq_one_iff hn]
  · rw [length_assemble, h, blobCount_eq_succ_iff hn Nat.one_pos]
    omega

/-- Settles O46: blobs of one size, read one after the other. -/
theorem disassembleTakesFirst : Obligations.DisassembleTakesFirst := by
  intro n blobs w t hn hsize
  refine ⟨fun hlt => (disassemble_eq_error_iff n blobs w t _).2 ⟨rfl, hlt⟩, fun hle => ?_⟩
  refine ⟨_, disassemble_eq_ok n blobs w t hle, ?_, fun e he => ?_⟩
  · rw [List.length_take, length_flatten_blobs hsize, Nat.min_eq_left hle]
  · rw [List.getElem?_take_of_lt he, getElem?_flatten_blobs hn hsize]

/-- Settles O48: framing gives the chunks back, and the chunks give the payload back. -/
theorem encodeDecodeRoundTrip : Obligations.EncodeDecodeRoundTrip := by
  intro n p w hn hw
  rw [encodePayload, decodeBlobs_assemble hn (length_pack p w), unpack_pack p (by omega) (by omega)]

end Sys2Proof.Machine
end

section
/-! SUPPORT. The exceptions family (60_exceptions.md R180 to R192): acceptance of a command word, dropped writes,
illegal words, and the order of the error checks. -/

namespace Sys2Proof.Machine

/-! ## Acceptance (60_exceptions.md R190) -/

/-- An idle write to CMD, whatever the word, is its acceptance. -/
theorem step_writeReg_cmd_of_idle {s : State} {v : Word} {rest : List HostAction}
    (h : hostMoves s (.writeReg 0#4 v) rest) (hb : s.busy = false) (hr : s.resetLine = false) :
    step s = .next { accept v (useTurn s) with script := rest } := by
  rw [step_writeReg h, writeSlot_of_idle 0#4 v (useTurn s) hr hb]
  rfl

/-- Acceptance keeps the reserved bits of STATUS (10_state.md R23). -/
theorem getLsbD_statusAccepted_of_reserved (w : Word) {k : Nat} (hk : k < 32) (h : k = 3 ∨ 8 ≤ k) :
    (statusAccepted w).getLsbD k = w.getLsbD k := by
  rw [getLsbD_statusAccepted w k hk, if_neg (by omega), if_neg (by omega), if_neg (by omega), if_neg (by omega)]

/-! ## The engine's step at a legal and at an illegal latch (60_exceptions.md R184, R191) -/

theorem latch_of_engineMoves {s : State} {l : Latch} : engineMoves s l → s.latch = some l := fun ⟨_, _, _, _, hl⟩ => hl

theorem exists_decodeLatch_eq_error_iff (l : Latch) :
    (∃ e, decodeLatch l = .error e) ↔ l.rsv ≠ 0#27 ∨ l.op = 0#4 ∨ 7 ≤ l.op.toNat :=
  decodeFields_error_iff l.op l.mode l.rsv

theorem step_of_decodeLatch_ok {s : State} {l : Latch} {i : Instr} (h : engineMoves s l) (hd : decodeLatch l = .ok i) :
    step s = exec i (useTurn s) := by
  rw [step_of_engineMoves h, hd]

/-- An illegal word completes with E_ILLEGAL_CMD; no operand of the latch is read. -/
theorem step_of_decodeLatch_error {s : State} {l : Latch} {e : DecodeError} (h : engineMoves s l)
    (hd : decodeLatch l = .error e) : step s = .next (complete .illegalCmd (useTurn s)) := by
  rw [step_of_engineMoves h, hd]

/-- The code a legal command ends with is the outcome of its checks, whether or not the host kept the buffer contract
(70_reset_and_hazards.md R215). -/
theorem step_statusErr_of_decodeLatch_ok {s : State} {l : Latch} {i : Instr} (h : engineMoves s l)
    (hd : decodeLatch l = .ok i) :
    ∃ t, step s = .next t ∧ statusErr t.status = errBits (commandError (commandOf i) (modeOf i) s.cfg l) := by
  have hl : (useTurn s).latch = some l := (useTurn_latch s).trans (latch_of_engineMoves h)
  refine ⟨_, (step_of_decodeLatch_ok h hd).trans (exec_of_latch i (useTurn s) l hl), ?_⟩
  rw [complete_status, statusErr_completed, useTurn_cfg]

/-! ## The checks in their order (60_exceptions.md R188) -/

/-- UNPACK asks for more bits than its chunks hold (60_exceptions.md R182). -/
abbrev lengthMismatches (c : Command) (m : Mode) (l : Latch) : Prop :=
  c = .unpack ∧ 8 * l.len.toNat > l.count.toNat * usableBits m

/-- DISASSEMBLE or DECODE asks for more chunks than its blobs hold (60_exceptions.md R183). -/
abbrev chunkCountMismatches (c : Command) (m : Mode) (cfg : Config) (l : Latch) : Prop :=
  (c = .disassemble ∧ l.count.toNat > cfg.nElements * l.nblobs.toNat) ∨
    (c = .decode ∧ chunkCount l.len.toNat (usableBits m) > cfg.nElements * l.nblobs.toNat)

/-- A command has at most one of the two value errors, so the order they are listed in is free. -/
theorem valueError_eq_ite (c : Command) (m : Mode) (cfg : Config) (l : Latch) :
    valueError c m cfg l =
      if lengthMismatches c m l then .lengthMismatch
      else if chunkCountMismatches c m cfg l then .chunkCountMismatch
      else .none := by
  cases c <;> simp [valueError, lengthMismatches, chunkCountMismatches]

/-- The check of the bounds fails exactly when a range ends past the buffer (60_exceptions.md R185). -/
theorem not_inBounds_and_iff (a b : Range) (n : Nat) :
    ¬ (a.inBounds n = true ∧ b.inBounds n = true) ↔ a.base + a.size > n ∨ b.base + b.size > n := by
  rw [inBounds_iff, inBounds_iff]
  omega

/-- The first check that fails names the error: the value error, then the bounds, then the overlap. -/
theorem commandError_eq_ite (c : Command) (m : Mode) (cfg : Config) (l : Latch) :
    commandError c m cfg l =
      if lengthMismatches c m l then .lengthMismatch
      else if chunkCountMismatches c m cfg l then .chunkCountMismatch
      else if l.src.toNat + srcSize c cfg l > cfg.bufBytes ∨ l.dst.toNat + dstSize c m cfg l > cfg.bufBytes then .bounds
      else if 0 < srcSize c cfg l ∧ 0 < dstSize c m cfg l ∧ l.src.toNat < l.dst.toNat + dstSize c m cfg l ∧
          l.dst.toNat < l.src.toNat + srcSize c cfg l then .overlap
      else .none := by
  rw [commandError, valueError_eq_ite]
  by_cases hlen : lengthMismatches c m l
  · simp only [if_pos hlen]
    rfl
  by_cases hcount : chunkCountMismatches c m cfg l
  · simp only [if_neg hlen, if_pos hcount]
    rfl
  simp only [if_neg hlen, if_neg hcount, ne_eq, not_true_eq_false, if_false, not_inBounds_and_iff, overlaps_iff,
    srcRange, dstRange]

/-! ## The statements of the family -/

/-- Settles O5: the step is `accept`, which loads the latch from the word's fields and the operand registers. -/
theorem cmdWriteAccepts : Obligations.CmdWriteAccepts := by
  intro s v rest h hb hr
  exact ⟨statusAccepted s.status, step_writeReg_cmd_of_idle h hb hr, statusBusy_accepted _, statusDone_accepted _,
    statusWerr_accepted _, statusErr_accepted _, fun _ hk hres => getLsbD_statusAccepted_of_reserved _ hk hres⟩

/-- Settles O7: whatever the slot, the write is dropped and only WERR is set. -/
theorem busyRegisterWritesDropped : Obligations.BusyRegisterWritesDropped := by
  intro s k v rest h hb hr
  refine ⟨statusDropped s.status, step_writeReg_of_busy h hb hr, statusWerr_dropped _, fun j hj h2 => ?_⟩
  rw [getLsbD_statusDropped s.status j hj, if_neg h2]

/-- Settles O15: an illegal latch does not decode, and the step is then the completion procedure alone. -/
theorem illegalWordCompletes : Obligations.IllegalWordCompletes := by
  intro s l h hill
  obtain ⟨e, hd⟩ := (exists_decodeLatch_eq_error_iff l).2 hill
  exact ⟨statusCompleted .illegalCmd s.status, step_of_decodeLatch_error h hd, completedWith_completed .illegalCmd _⟩

/-- Settles O19: an illegal latch has no command to check, and a legal one ends with the first check that fails. -/
theorem errorPriority : Obligations.ErrorPriority := by
  intro s l h
  cases hd : decodeLatch l with
  | error e =>
    refine ⟨_, step_of_decodeLatch_error h hd, fun _ => statusErr_completed .illegalCmd _, ?_⟩
    rintro i w nSrc nDst ⟨⟩
  | ok i =>
    obtain ⟨t, hstep, herr⟩ := step_statusErr_of_decodeLatch_ok h hd
    refine ⟨t, hstep, fun hill => ?_, ?_⟩
    · obtain ⟨e, hbad⟩ := (exists_decodeLatch_eq_error_iff l).2 hill
      rw [hd] at hbad
      cases hbad
    · rintro _ _ _ _ ⟨⟩ rfl rfl rfl
      rw [herr, commandError_eq_ite]
      simp only [apply_ite errBits]
      rfl

end Sys2Proof.Machine
end

section
/-! SUPPORT. The words of 30_encoding.md R90: decoding and encoding are inverse to each other. -/

namespace Sys2Proof

/-- Settles O2: only its own word decodes to a command, and that word does. -/
theorem decodeIffEncode : Obligations.DecodeIffEncode :=
  fun _ i => ⟨eq_encode_of_decode, fun h => h ▸ decode_encode i⟩

/-- Settles O3: each of the words is the encoding of its command. -/
theorem commandWordsDecode : Obligations.CommandWordsDecode :=
  ⟨decode_encode .packT, decode_encode .packN, decode_encode .unpackT, decode_encode .unpackN,
    decode_encode .assembleT, decode_encode .assembleN, decode_encode .disassembleT, decode_encode .disassembleN,
    decode_encode .encodeT, decode_encode .encodeN, decode_encode .decodeT, decode_encode .decodeN⟩

end Sys2Proof
end

section
/-! SUPPORT. A command before its completion (60_exceptions.md R188, R189): what it has written by then, and what that
depends on. -/

namespace Sys2Proof.Machine

/-- The state a command has come to when only the settling of a broken contract and the completion are left: its effect
where no check failed, and otherwise the state it began in. -/
def attempt (c : Command) (m : Mode) (l : Latch) (s : State) : State :=
  if commandError c m s.cfg l = .none then effectOf c m l s else s

theorem attempt_of_success {c : Command} {m : Mode} {l : Latch} {s : State}
    (h : commandError c m s.cfg l = .none) : attempt c m l s = effectOf c m l s := if_pos h

theorem attempt_of_failure {c : Command} {m : Mode} {l : Latch} {s : State}
    (h : commandError c m s.cfg l ≠ .none) : attempt c m l s = s := if_neg h

theorem exec_eq_attempt (i : Instr) {s : State} {l : Latch} (h : s.latch = some l) :
    exec i s = .next (complete (commandError (commandOf i) (modeOf i) s.cfg l)
      (settleHazard (srcRange (commandOf i) s.cfg l) (dstRange (commandOf i) (modeOf i) s.cfg l)
        (attempt (commandOf i) (modeOf i) l s))) := exec_of_latch i s l h

/-- A next state is the completion of the attempt (60_exceptions.md R189). -/
theorem exec_attempt_cases {i : Instr} {s t : State} (h : exec i s = .next t) :
    ∃ l, s.latch = some l ∧
      t = complete (commandError (commandOf i) (modeOf i) s.cfg l)
        (settleHazard (srcRange (commandOf i) s.cfg l) (dstRange (commandOf i) (modeOf i) s.cfg l)
          (attempt (commandOf i) (modeOf i) l s)) := exec_cases h

theorem attempt_frame (c : Command) (m : Mode) (l : Latch) (s : State) :
    attempt c m l s = { s with
      buf := (attempt c m l s).buf, count := (attempt c m l s).count, nblobs := (attempt c m l s).nblobs
      outlen := (attempt c m l s).outlen } := by
  unfold attempt
  split
  · exact effectOf_frame c m l s
  · rfl

section
variable (c : Command) (m : Mode) (l : Latch) (s : State)

@[simp] theorem attempt_cfg : (attempt c m l s).cfg = s.cfg := (congrArg State.cfg (attempt_frame c m l s) :)
@[simp] theorem attempt_status : (attempt c m l s).status = s.status :=
  (congrArg State.status (attempt_frame c m l s) :)
@[simp] theorem attempt_hazard : (attempt c m l s).hazard = s.hazard :=
  (congrArg State.hazard (attempt_frame c m l s) :)
@[simp] theorem attempt_bufDraw : (attempt c m l s).bufDraw = s.bufDraw :=
  (congrArg State.bufDraw (attempt_frame c m l s) :)
@[simp] theorem attempt_draws : (attempt c m l s).draws = s.draws := (congrArg State.draws (attempt_frame c m l s) :)
@[simp] theorem attempt_resetLine : (attempt c m l s).resetLine = s.resetLine :=
  (congrArg State.resetLine (attempt_frame c m l s) :)

end

/-! ## What the checks grant (60_exceptions.md R188) -/

theorem valueError_of_success {c : Command} {m : Mode} {cfg : Config} {l : Latch}
    (h : commandError c m cfg l = .none) : valueError c m cfg l = .none :=
  ((commandError_eq_none_iff c m cfg l).1 h).1

theorem dst_le_bufBytes_of_success {c : Command} {m : Mode} {cfg : Config} {l : Latch}
    (h : commandError c m cfg l = .none) : l.dst.toNat + dstSize c m cfg l ≤ cfg.bufBytes := by
  obtain ⟨-, -, hdst, -⟩ := (commandError_eq_none_iff c m cfg l).1 h
  exact hdst

theorem nElements_pos {c : Config} (h : c.ok) : 0 < c.nElements := h.1.1

/-! ## A part of the invariant that every command keeps -/

/-- What the invariant says of the configuration, the memory, STATUS and the draws: the clauses that do not speak of the
command in flight or of reset. -/
structure Sound (s : State) : Prop where
  cfg_ok : s.cfg.ok
  buf_wf : s.buf.wf
  buf_bound : ∀ c ∈ s.buf, c.1 < s.cfg.bufBytes
  status_legal : statusLegal s.status
  draws_fresh : s.bufDraw < s.draws

theorem sound_of_inv {s : State} (h : Inv s) : Sound s :=
  ⟨h.cfg_ok, h.buf_wf, h.buf_bound, h.status_legal, h.draws_fresh⟩

theorem attempt_buf_wf (c : Command) (m : Mode) (l : Latch) {s : State} (h : s.buf.wf) : (attempt c m l s).buf.wf := by
  unfold attempt
  split
  · exact effectOf_buf_wf c m l s h
  · exact h

/-- The bounds check keeps every command inside BUF (60_exceptions.md R185). -/
theorem attempt_buf_bound (c : Command) (m : Mode) (l : Latch) {s : State} (hok : s.cfg.ok)
    (h : ∀ x ∈ s.buf, x.1 < s.cfg.bufBytes) : ∀ x ∈ (attempt c m l s).buf, x.1 < s.cfg.bufBytes := by
  intro x hx
  by_cases he : commandError c m s.cfg l = .none
  · rw [attempt_of_success he] at hx
    rcases mem_effectOf_buf c m l s (nElements_pos hok) (valueError_of_success he) x hx with hold | ⟨-, hlt⟩
    · exact h x hold
    · exact hlt.trans_le (dst_le_bufBytes_of_success he)
  · rw [attempt_of_failure he] at hx
    exact h x hx

theorem sound_attempt (c : Command) (m : Mode) (l : Latch) {s : State} (h : Sound s) : Sound (attempt c m l s) where
  cfg_ok := by simpa using h.cfg_ok
  buf_wf := attempt_buf_wf c m l h.buf_wf
  buf_bound := by simpa using attempt_buf_bound c m l h.cfg_ok h.buf_bound
  status_legal := by simpa using h.status_legal
  draws_fresh := by simpa using h.draws_fresh

theorem sound_settleHazard (a b : Range) {s : State} (h : Sound s) : Sound (settleHazard a b s) where
  cfg_ok := by simpa using h.cfg_ok
  buf_wf := settleHazard_buf_wf a b s h.buf_wf
  buf_bound := by simpa using settleHazard_buf_bound a b s h.buf_bound
  status_legal := by simpa using h.status_legal
  draws_fresh := by
    have := h.draws_fresh
    rw [settleHazard_bufDraw, settleHazard_draws]
    split <;> omega

/-- What the invariant asks of the latch while no command is in flight (10_state.md R39). -/
theorem latch_eq_of_idle {s : State} (hl : s.latch = none) (hb : s.busy = false) :
    s.latch = if s.busy then some (latchOf s.cmd s) else none := by
  rw [hl, hb]
  rfl

/-- Completion makes the rest of the invariant hold: nothing is in flight any more. -/
theorem inv_complete (e : ErrCode) {s : State} (h : Sound s) (hr : s.resetLine = false) : Inv (complete e s) where
  cfg_ok := h.cfg_ok
  buf_wf := h.buf_wf
  buf_bound := h.buf_bound
  status_legal := statusLegal_completed e h.status_legal
  latch_eq := latch_eq_of_idle rfl (statusBusy_completed e s.status)
  reset_regs := by simp [hr]
  hazard_busy := by simp
  draws_fresh := h.draws_fresh

theorem inv_exec {i : Instr} {s t : State} (h : Inv s) (hr : s.resetLine = false) (hx : exec i s = .next t) :
    Inv t := by
  obtain ⟨l, -, rfl⟩ := exec_attempt_cases hx
  exact inv_complete _ (sound_settleHazard _ _ (sound_attempt _ _ l (sound_of_inv h))) (by simpa using hr)

end Sys2Proof.Machine
end

section
/-! SUPPORT. The host's moves and the invariant (10_state.md; 20_memory.md R62; 70_reset_and_hazards.md R210, R215). -/

namespace Sys2Proof.Machine

/-! ## Register writes -/

theorem latch_eq_none_of_idle {s : State} (h : Inv s) (hb : s.busy = false) : s.latch = none := by
  rw [h.latch_eq, hb]
  rfl

/-- While idle the operand registers are free: no latch has to agree with them. -/
theorem inv_withOperands {s : State} (h : Inv s) (hb : s.busy = false) (hr : s.resetLine = false)
    (src dst len count nblobs : Word) :
    Inv { s with src := src, dst := dst, len := len, count := count, nblobs := nblobs } where
  cfg_ok := h.cfg_ok
  buf_wf := h.buf_wf
  buf_bound := h.buf_bound
  status_legal := h.status_legal
  latch_eq := by
    have hl := latch_eq_none_of_idle h hb
    exact latch_eq_of_idle hl hb
  reset_regs := by simp [hr]
  hazard_busy := h.hazard_busy
  draws_fresh := h.draws_fresh

/-- Acceptance loads the latch with what the registers hold (60_exceptions.md R190). -/
theorem inv_accept (v : Word) {s : State} (h : Inv s) (hr : s.resetLine = false) : Inv (accept v s) where
  cfg_ok := h.cfg_ok
  buf_wf := h.buf_wf
  buf_bound := h.buf_bound
  status_legal := statusLegal_accepted h.status_legal
  latch_eq := by
    have hb : (accept v s).busy = true := statusBusy_accepted s.status
    rw [hb]
    rfl
  reset_regs := by simp [hr]
  hazard_busy := by simp
  draws_fresh := h.draws_fresh

/-- A dropped write keeps BUSY, and so the latch stays what it has to be (60_exceptions.md R192). -/
theorem inv_withStatusDropped {s : State} (h : Inv s) (hr : s.resetLine = false) :
    Inv { s with status := statusDropped s.status } := by
  have hb : ({ s with status := statusDropped s.status } : State).busy = s.busy := statusBusy_dropped s.status
  refine ⟨h.cfg_ok, h.buf_wf, h.buf_bound, statusLegal_dropped h.status_legal, ?_, ?_, ?_, h.draws_fresh⟩
  · rw [hb]
    exact h.latch_eq
  · simp [hr]
  · rw [hb]
    exact h.hazard_busy

theorem inv_writeSlotIdle (k : BitVec 4) (v : Word) {s : State} (h : Inv s) (hb : s.busy = false)
    (hr : s.resetLine = false) : Inv (writeSlotIdle k v s) := by
  rcases writeSlotIdle_cases k v s with
    ⟨-, hw⟩ | ⟨-, hw⟩ | ⟨-, hw⟩ | ⟨-, hw⟩ | ⟨-, hw⟩ | ⟨-, hw⟩ | ⟨-, hw⟩ <;> rw [hw]
  · exact inv_accept v h hr
  · exact inv_withOperands h hb hr v s.dst s.len s.count s.nblobs
  · exact inv_withOperands h hb hr s.src v s.len s.count s.nblobs
  · exact inv_withOperands h hb hr s.src s.dst v s.count s.nblobs
  · exact inv_withOperands h hb hr s.src s.dst s.len v s.nblobs
  · exact inv_withOperands h hb hr s.src s.dst s.len s.count v
  · exact h

theorem inv_writeSlot (k : BitVec 4) (v : Word) {s : State} (h : Inv s) : Inv (writeSlot k v s) := by
  cases hr : s.resetLine with
  | true => rwa [writeSlot_of_reset k v s hr]
  | false =>
    cases hb : s.busy with
    | true =>
      rw [writeSlot_of_busy k v s hr hb]
      exact inv_withStatusDropped h hr
    | false =>
      rw [writeSlot_of_idle k v s hr hb]
      exact inv_writeSlotIdle k v h hb hr

/-! ## Byte accesses -/

theorem inv_hostWriteByte (a : Nat) (v : Byte) {s : State} (h : Inv s) : Inv (hostWriteByte a v s) := by
  by_cases ha : a < s.cfg.bufBytes
  · rw [hostWriteByte_of_lt a v s ha]
    refine ⟨h.cfg_ok, Memory.write_wf h.buf_wf a [v], fun c hc => ?_, h.status_legal, h.latch_eq, h.reset_regs,
      fun hz => ?_, h.draws_fresh⟩
    · rcases Memory.mem_write hc with hold | ⟨-, hlt⟩
      · exact h.buf_bound c hold
      · have hone : [v].length = 1 := rfl
        show c.1 < s.cfg.bufBytes
        omega
    · rcases Bool.or_eq_true_iff.1 hz with hz | hz
      · exact h.hazard_busy hz
      · exact (Bool.and_eq_true_iff.1 hz).1
  · rwa [hostWriteByte_of_ge a v s (Nat.not_lt.1 ha)]

theorem le_draws_observeByte (a : Nat) (s : State) : s.draws ≤ (observeByte a s).draws := by
  rw [observeByte_draws]
  split <;> omega

theorem inv_observeByte (a : Nat) {s : State} (h : Inv s) : Inv (observeByte a s) :=
  ⟨h.cfg_ok, h.buf_wf, h.buf_bound, h.status_legal, h.latch_eq, h.reset_regs, h.hazard_busy,
    h.draws_fresh.trans_le (le_draws_observeByte a s)⟩

theorem inv_observeSlot (k : BitVec 4) {s : State} (h : Inv s) : Inv (observeSlot k s) := inv_withSeen h _

/-! ## The host's script (30_encoding.md R92) -/

theorem hostAct_wait_of_busy {s : State} (rest : List HostAction) (h : s.busy = true) :
    hostAct .wait rest s = observeSlot 1#4 s := if_pos h

theorem hostAct_wait_of_idle {s : State} (rest : List HostAction) (h : s.busy = false) :
    hostAct .wait rest s = { observeSlot 1#4 s with script := rest } := if_neg (by simp [h])

theorem hostAct_check_of_eq {s : State} {v : Word} (rest : List HostAction) (h : s.status = v) :
    hostAct (.check v) rest s = { observeSlot 1#4 s with script := rest } := if_pos h

theorem hostAct_check_of_ne {s : State} {v : Word} (rest : List HostAction) (h : s.status ≠ v) :
    hostAct (.check v) rest s = { observeSlot 1#4 s with script := [], checkFailed := true } := if_neg h

theorem inv_withCheckFailed {s : State} (h : Inv s) (b : Bool) : Inv { s with checkFailed := b } :=
  ⟨h.1, h.2, h.3, h.4, h.5, h.6, h.7, h.8⟩

theorem inv_hostAct (act : HostAction) (rest : List HostAction) {s : State} (h : Inv s) :
    Inv (hostAct act rest s) := by
  cases act with
  | writeReg k v => exact inv_withScript (inv_writeSlot k v h) rest
  | readReg k => exact inv_withScript (inv_observeSlot k h) rest
  | writeByte a v => exact inv_withScript (inv_hostWriteByte a v h) rest
  | readByte a => exact inv_withScript (inv_observeByte a h) rest
  | wait =>
    cases hb : s.busy with
    | true =>
      rw [hostAct_wait_of_busy rest hb]
      exact inv_observeSlot 1#4 h
    | false =>
      rw [hostAct_wait_of_idle rest hb]
      exact inv_withScript (inv_observeSlot 1#4 h) rest
  | check v =>
    by_cases hv : s.status = v
    · rw [hostAct_check_of_eq rest hv]
      exact inv_withScript (inv_observeSlot 1#4 h) rest
    · rw [hostAct_check_of_ne rest hv]
      exact inv_withCheckFailed (inv_withScript (inv_observeSlot 1#4 h) []) true

theorem inv_hostStep {s : State} (h : Inv s) : Inv (hostStep s) := by
  unfold hostStep
  split
  · exact h
  · exact inv_hostAct _ _ h

/-! ## Reset (70_reset_and_hazards.md R210) -/

theorem statusLegal_zero : statusLegal 0#32 := by decide

theorem statusBusy_zero : statusBusy 0#32 = false := by decide

theorem registersAtReset_resetMachine (s : State) : registersAtReset (resetMachine s) :=
  ⟨rfl, rfl, rfl, rfl, rfl, rfl, rfl, rfl⟩

/-- The reset values meet the invariant at either level of the reset input. -/
theorem inv_resetMachine {s : State} (hok : s.cfg.ok) (b : Bool) : Inv { resetMachine s with resetLine := b } where
  cfg_ok := hok
  buf_wf := List.Pairwise.nil
  buf_bound := by simp
  status_legal := statusLegal_zero
  latch_eq := latch_eq_of_idle rfl statusBusy_zero
  reset_regs := fun _ => registersAtReset_resetMachine s
  hazard_busy := by simp
  draws_fresh := Nat.lt_succ_self s.draws

theorem inv_releaseReset {s : State} (h : Inv s) : Inv (releaseReset s) := by
  unfold releaseReset
  split
  · exact inv_resetMachine h.cfg_ok false
  · exact h

/-! ## The statements about the invariant -/

/-- Settles O57: case by case over whose turn it is, and for the host over the action of its script. -/
theorem stepKeepsInvariant : Obligations.StepKeepsInvariant := by
  intro s t h hstep
  have hu : Inv (useTurn s) := inv_useTurn h
  obtain ⟨-, ⟨-, rfl⟩ | ⟨-, rfl⟩ | ⟨-, rfl⟩ | ⟨-, -, rfl⟩ | ⟨l, i, hm, -, hx⟩ | ⟨l, e, hm, -, rfl⟩⟩ := step_cases hstep
  · exact inv_hostStep hu
  · exact inv_resetMachine hu.cfg_ok true
  · exact inv_releaseReset hu
  · exact hu
  · obtain ⟨-, -, -, hr, -⟩ := hm
    exact inv_exec hu hr hx
  · obtain ⟨-, -, -, hr, -⟩ := hm
    exact inv_complete .illegalCmd (sound_of_inv hu) hr

/-- Settles O56: the machine right after reset is in canonical form and idle. -/
theorem resetMeetsInvariant : Obligations.ResetMeetsInvariant := by
  have hreset : ∀ c : Config, c.ok → Inv (State.resetWith c) := fun c hok =>
    ⟨hok, List.Pairwise.nil, by simp [State.resetWith], statusLegal_zero, latch_eq_of_idle rfl statusBusy_zero,
      fun _ => ⟨rfl, rfl, rfl, rfl, rfl, rfl, rfl, rfl⟩, by simp [State.resetWith], Nat.zero_lt_one⟩
  exact ⟨hreset Config.default (by decide), hreset⟩

end Sys2Proof.Machine
end

section
/-! SUPPORT. The engine's step and the life cycle of a command (60_exceptions.md R180, R189, R191; 20_memory.md R72). -/

namespace Sys2Proof.Machine

/-! ## Steps of the scheduler -/

theorem step_of_ok {s : State} (h : s.cfg.ok) : step s = takeTurn (scheduledTurn s) (useTurn s) := if_pos h

theorem step_of_scheduledTurn {s : State} {turn : Turn} (h : s.cfg.ok) (ht : scheduledTurn s = turn) :
    step s = takeTurn turn (useTurn s) := by
  rw [step_of_ok h, ht]

theorem engineStep_of_idle {s : State} (h : s.busy = false ∨ s.resetLine = true) : engineStep s = .next s := by
  have hno : ¬ (s.busy = true ∧ s.resetLine = false) := by
    rintro ⟨hb, hr⟩
    simp [hb, hr] at h
  exact if_neg hno

theorem step_of_idleEngine {s : State} (h : s.cfg.ok) (ht : scheduledTurn s = .engine)
    (hidle : s.busy = false ∨ s.resetLine = true) : step s = .next (useTurn s) := by
  rw [step_of_scheduledTurn h ht]
  exact engineStep_of_idle (s := useTurn s) hidle

/-! ## Why a step is refused -/

theorem exec_of_no_latch (i : Instr) {s : State} (h : s.latch = none) : exec i s = .refused .latchInvalid := by
  rw [exec_eq_runCommand, runCommand_of_no_latch _ _ _ _ h]

theorem exec_ne_configOutOfRange (i : Instr) (s : State) : exec i s ≠ .refused .configOutOfRange := by
  cases hl : s.latch with
  | none => simp [exec_of_no_latch i hl]
  | some l => simp [exec_of_latch i s l hl]

theorem engineStep_ne_configOutOfRange (s : State) : engineStep s ≠ .refused .configOutOfRange := by
  unfold engineStep
  split
  · split
    · simp
    · split
      · exact exec_ne_configOutOfRange _ s
      · simp
  · simp

theorem takeTurn_ne_configOutOfRange (turn : Turn) (s : State) : takeTurn turn s ≠ .refused .configOutOfRange := by
  cases turn with
  | engine => exact engineStep_ne_configOutOfRange s
  | _ => simp [takeTurn]

theorem step_eq_configOutOfRange_iff (s : State) : step s = .refused .configOutOfRange ↔ ¬ s.cfg.ok := by
  constructor
  · intro h hok
    rw [step_of_ok hok] at h
    exact takeTurn_ne_configOutOfRange _ _ h
  · exact fun h => if_neg h

/-! ## How a command ends -/

theorem exists_exec_next (i : Instr) {s : State} {l : Latch} (h : s.latch = some l) : ∃ t, exec i s = .next t :=
  ⟨_, exec_of_latch i s l h⟩

/-- STATUS after a command holds the outcome of its checks, whether or not the host kept the buffer contract. -/
theorem status_of_exec {i : Instr} {s t : State} {l : Latch} (hl : s.latch = some l) (h : exec i s = .next t) :
    t.status = statusCompleted (commandError (commandOf i) (modeOf i) s.cfg l) s.status := by
  rw [exec_eq_attempt i hl] at h
  cases h
  simp

theorem completedWith_of_statusCompleted {w w' : Word} {e : ErrCode} (h : w' = statusCompleted e w) :
    completedWith (statusErr w') w w' := by
  rw [h, statusErr_completed]
  exact completedWith_completed e w

theorem draws_of_exec {i : Instr} {s t : State} (h : exec i s = .next t) :
    t.draws = if s.hazard then s.draws + 1 else s.draws := by
  obtain ⟨l, -, rfl⟩ := exec_attempt_cases h
  simp

theorem exec_of_hazard_false (i : Instr) {s : State} {l : Latch} (hl : s.latch = some l) (hh : s.hazard = false) :
    exec i s = .next (complete (commandError (commandOf i) (modeOf i) s.cfg l)
      (attempt (commandOf i) (modeOf i) l s)) := by
  rw [exec_eq_attempt i hl, settleHazard_of_not_hazard _ _ _ (by simpa using hh)]

/-- A command that ends with a code failed a check, and is its completion alone (60_exceptions.md R180). -/
theorem exec_of_err_ne_zero {i : Instr} {s t : State} {l : Latch} (hl : s.latch = some l) (hh : s.hazard = false)
    (h : exec i s = .next t) (he : statusErr t.status ≠ 0#4) :
    t = complete (commandError (commandOf i) (modeOf i) s.cfg l) s := by
  rw [status_of_exec hl h, statusErr_completed, errBits_ne_zero_iff] at he
  rw [exec_of_failure i s l hl hh he] at h
  exact (Host.Outcome.next.inj h).symm

/-! ## The bytes of an attempt (20_memory.md R72) -/

theorem byteAt_attempt_of_outside (c : Command) (m : Mode) {l : Latch} {s : State} {x : Nat} (hn : 0 < s.cfg.nElements)
    (hx : ¬ (l.dst.toNat ≤ x ∧ x < l.dst.toNat + dstSize c m s.cfg l)) :
    (attempt c m l s).byteAt x = s.byteAt x := by
  by_cases he : commandError c m s.cfg l = .none
  · rw [attempt_of_success he, byteAt_effectOf c m l s hn (valueError_of_success he), if_neg hx]
  · rw [attempt_of_failure he]

/-- A source byte lies outside the destination, or the overlap check fails (60_exceptions.md R186). -/
theorem byteAt_attempt_of_source (c : Command) (m : Mode) {l : Latch} {s : State} {x : Nat} (hn : 0 < s.cfg.nElements)
    (hx : l.src.toNat ≤ x ∧ x < l.src.toNat + srcSize c s.cfg l) : (attempt c m l s).byteAt x = s.byteAt x := by
  by_cases he : commandError c m s.cfg l = .none
  · obtain ⟨-, -, -, hdisjoint⟩ := (commandError_eq_none_iff c m s.cfg l).1 he
    exact byteAt_attempt_of_outside c m hn (by omega)
  · rw [attempt_of_failure he]

/-! ## The statements about one engine step and one command -/

/-- Settles O14: the step of the engine is `exec` after the turn is used up. -/
theorem stepRunsDecodedCommand : Obligations.StepRunsDecodedCommand :=
  fun _ _ _ h hd => step_of_decodeLatch_ok h hd

/-- Settles O16: the engine's guard fails. -/
theorem idleEngineHasNoStep : Obligations.IdleEngineHasNoStep :=
  fun _ h ht hidle => step_of_idleEngine h ht hidle

/-- Settles O17: only the guard of `step` refuses for the configuration, since the engine refuses for its latch only. -/
theorem configurationRefused : Obligations.ConfigurationRefused := by
  intro s
  rw [step_eq_configOutOfRange_iff]
  omega

/-- Settles O29: every command reads its operands from the latch first. -/
theorem invalidLatchRefused : Obligations.InvalidLatchRefused :=
  fun i _ h => exec_of_no_latch i h

/-- Settles O54: a turn of the reset input needs no more than a legal configuration. -/
theorem resetAbandonsCommand : Obligations.ResetAbandonsCommand :=
  fun _ h ht => step_of_scheduledTurn h ht

/-- Settles O20: the table of ranges, command by command. -/
theorem rangesOfCommands : Obligations.RangesOfCommands :=
  fun _ _ _ => ⟨⟨rfl, rfl⟩, ⟨rfl, rfl⟩, ⟨rfl, rfl⟩, ⟨rfl, rfl⟩, ⟨rfl, rfl⟩, ⟨rfl, rfl⟩⟩

/-- Settles O18: the frame of a command around its effect ends in the completion procedure. -/
theorem everyCommandCompletes : Obligations.EveryCommandCompletes := by
  intro i s l hl
  obtain ⟨t, ht⟩ := exists_exec_next i hl
  obtain ⟨hframe, -⟩ := exec_frame ht
  refine ⟨t, ht, completedWith_of_statusCompleted (status_of_exec hl ht), hframe, fun hh => ?_⟩
  rw [draws_of_exec ht, hh]
  rfl

/-- Settles O21: an illegal word and a failed check both leave the completion procedure alone. -/
theorem errorsArePrecise : Obligations.ErrorsArePrecise := by
  intro s t l hm hh hstep he
  have hends : ∃ e, t = complete e (useTurn s) := by
    cases hd : decodeLatch l with
    | error e =>
      rw [step_of_decodeLatch_error hm hd] at hstep
      exact ⟨.illegalCmd, (Host.Outcome.next.inj hstep).symm⟩
    | ok i =>
      rw [step_of_decodeLatch_ok hm hd] at hstep
      have hl : (useTurn s).latch = some l := (useTurn_latch s).trans (latch_of_engineMoves hm)
      exact ⟨_, exec_of_err_ne_zero hl hh hstep he⟩
  obtain ⟨e, rfl⟩ := hends
  refine ⟨?_, completedWith_of_statusCompleted rfl⟩
  simp only [complete, useTurn, hh]

/-- Settles O22: the effect writes the destination only, which the source does not meet where the checks passed. -/
theorem commandWritesOnlyDestination : Obligations.CommandWritesOnlyDestination := by
  intro i s t l hok hl hh ht
  have hn := nElements_pos hok
  refine ⟨fun x hx => ?_, fun x h1 h2 => ?_, fun he => ?_⟩
  · rw [exec_of_hazard_false i hl hh] at ht
    cases ht
    exact byteAt_attempt_of_outside _ _ hn (by omega)
  · rw [exec_of_hazard_false i hl hh] at ht
    cases ht
    exact byteAt_attempt_of_source _ _ hn ⟨h1, h2⟩
  · rw [exec_of_err_ne_zero hl hh ht he]
    rfl

end Sys2Proof.Machine
end

section
/-! SUPPORT. Reset and progress (60_exceptions.md; 70_reset_and_hazards.md R210, R221): what no step changes, and what
every schedule comes to. -/

namespace Sys2Proof.Machine

/-! ## What the host cannot change -/

theorem hostAct_keeps (act : HostAction) (rest : List HostAction) (s : State) :
    (hostAct act rest s).cfg = s.cfg ∧ (hostAct act rest s).resetLine = s.resetLine ∧
      (hostAct act rest s).turns = s.turns := by
  cases act with
  | writeReg k v => exact ⟨writeSlot_cfg k v s, writeSlot_resetLine k v s, writeSlot_turns k v s⟩
  | readReg k => exact ⟨rfl, rfl, rfl⟩
  | writeByte a v => exact ⟨hostWriteByte_cfg a v s, hostWriteByte_resetLine a v s, hostWriteByte_turns a v s⟩
  | readByte a => exact ⟨rfl, rfl, rfl⟩
  | wait => simp only [hostAct]; split <;> exact ⟨rfl, rfl, rfl⟩
  | check v => simp only [hostAct]; split <;> exact ⟨rfl, rfl, rfl⟩

theorem busy_writeSlot_of_busy (k : BitVec 4) (v : Word) {s : State} (h : s.busy = true) :
    (writeSlot k v s).busy = true := by
  cases hr : s.resetLine with
  | true => rwa [writeSlot_of_reset k v s hr]
  | false =>
    rw [writeSlot_of_busy k v s hr h]
    exact (statusBusy_dropped s.status).trans h

/-- No access of the host ends a command in flight (60_exceptions.md R192). -/
theorem busy_hostAct_of_busy (act : HostAction) (rest : List HostAction) {s : State} (h : s.busy = true) :
    (hostAct act rest s).busy = true := by
  cases act with
  | writeReg k v => exact busy_writeSlot_of_busy k v h
  | readReg k => exact h
  | writeByte a v => exact (congrArg statusBusy (hostWriteByte_status a v s)).trans h
  | readByte a => exact h
  | wait => rwa [hostAct_wait_of_busy rest h]
  | check v =>
    by_cases hv : s.status = v
    · rwa [hostAct_check_of_eq rest hv]
    · rwa [hostAct_check_of_ne rest hv]

theorem hostStep_keeps (s : State) :
    (hostStep s).cfg = s.cfg ∧ (hostStep s).resetLine = s.resetLine ∧ (hostStep s).turns = s.turns := by
  unfold hostStep
  split
  · exact ⟨rfl, rfl, rfl⟩
  · exact hostAct_keeps _ _ s

@[simp] theorem hostStep_cfg (s : State) : (hostStep s).cfg = s.cfg := (hostStep_keeps s).1

@[simp] theorem hostStep_resetLine (s : State) : (hostStep s).resetLine = s.resetLine := (hostStep_keeps s).2.1

@[simp] theorem hostStep_turns (s : State) : (hostStep s).turns = s.turns := (hostStep_keeps s).2.2

theorem busy_hostStep_of_busy {s : State} (h : s.busy = true) : (hostStep s).busy = true := by
  unfold hostStep
  split
  · exact h
  · exact busy_hostAct_of_busy _ _ h

/-! ## What a step cannot change -/

@[simp] theorem releaseReset_cfg (s : State) : (releaseReset s).cfg = s.cfg := by unfold releaseReset; split <;> rfl

@[simp] theorem releaseReset_resetLine (s : State) : (releaseReset s).resetLine = false := by
  unfold releaseReset
  split
  · rfl
  · next h => simpa using h

theorem cfg_of_exec {i : Instr} {s t : State} (h : exec i s = .next t) : t.cfg = s.cfg := by
  obtain ⟨l, -, rfl⟩ := exec_attempt_cases h
  simp

theorem cfg_of_step {s t : State} (h : step s = .next t) : t.cfg = s.cfg := by
  obtain ⟨-, ⟨-, rfl⟩ | ⟨-, rfl⟩ | ⟨-, rfl⟩ | ⟨-, -, rfl⟩ | ⟨l, i, -, -, hx⟩ | ⟨l, e, -, -, rfl⟩⟩ := step_cases h
  case inr.inr.inr.inr.inl => exact (cfg_of_exec hx).trans (useTurn_cfg s)
  all_goals simp

/-- Reset stays asserted until it is released (70_reset_and_hazards.md R210). -/
theorem resetLine_of_step {s t : State} (h : step s = .next t) (hr : s.resetLine = true) :
    t.resetLine = false ↔ scheduledTurn s = .resetRelease := by
  obtain ⟨-, ⟨ht, rfl⟩ | ⟨ht, rfl⟩ | ⟨ht, rfl⟩ | ⟨ht, -, rfl⟩ | ⟨l, i, ⟨-, -, -, hr', -⟩, -⟩ |
    ⟨l, e, ⟨-, -, -, hr', -⟩, -⟩⟩ := step_cases h
  case inr.inr.inr.inr.inl => simp [hr] at hr'
  case inr.inr.inr.inr.inr => simp [hr] at hr'
  all_goals simp [ht, hr]

/-! ## There is always a next state -/

theorem exists_latch_of_busy {s : State} (h : Inv s) (hb : s.busy = true) : ∃ l, s.latch = some l :=
  ⟨latchOf s.cmd s, by rw [h.latch_eq, hb]; rfl⟩

/-- The command in flight is done after the engine's step, legal or not (60_exceptions.md R184, R189). -/
theorem step_done_of_engineMoves {s : State} {l : Latch} (h : engineMoves s l) :
    ∃ t, step s = .next t ∧ t.busy = false ∧ statusDone t.status = true := by
  cases hd : decodeLatch l with
  | error e =>
    exact ⟨_, step_of_decodeLatch_error h hd, statusBusy_completed .illegalCmd s.status,
      statusDone_completed .illegalCmd s.status⟩
  | ok i =>
    have hl : (useTurn s).latch = some l := (useTurn_latch s).trans (latch_of_engineMoves h)
    obtain ⟨t, ht⟩ := exists_exec_next i hl
    have hst := status_of_exec hl ht
    refine ⟨t, (step_of_decodeLatch_ok h hd).trans ht, ?_, ?_⟩
    · rw [State.busy, hst, statusBusy_completed]
    · rw [hst, statusDone_completed]

theorem resetLine_eq_false_of_busy {s : State} (h : Inv s) (hb : s.busy = true) : s.resetLine = false := by
  cases hr : s.resetLine with
  | false => rfl
  | true => simp [not_busy_of_resetLine h hr] at hb

theorem engineMoves_of_busy {s : State} (h : Inv s) (hb : s.busy = true) (ht : scheduledTurn s = .engine) :
    ∃ l, engineMoves s l := by
  obtain ⟨l, hl⟩ := exists_latch_of_busy h hb
  exact ⟨l, h.cfg_ok, ht, hb, resetLine_eq_false_of_busy h hb, hl⟩

theorem exists_step_next {s : State} (h : Inv s) : ∃ t, step s = .next t := by
  cases ht : scheduledTurn s with
  | host => exact ⟨_, step_of_scheduledTurn h.cfg_ok ht⟩
  | resetAssert => exact ⟨_, step_of_scheduledTurn h.cfg_ok ht⟩
  | resetRelease => exact ⟨_, step_of_scheduledTurn h.cfg_ok ht⟩
  | engine =>
    cases hb : s.busy with
    | false => exact ⟨_, step_of_idleEngine h.cfg_ok ht (.inl hb)⟩
    | true =>
      obtain ⟨l, hm⟩ := engineMoves_of_busy h hb ht
      obtain ⟨t, hstep, -⟩ := step_done_of_engineMoves hm
      exact ⟨t, hstep⟩

/-! ## Every accepted command completes (70_reset_and_hazards.md R221) -/

/-- The machine is idle with DONE 1 after `k` steps, `1 ≤ k ≤ n`. -/
def doneWithin (n : Nat) (s : State) : Prop :=
  ∃ k t, 1 ≤ k ∧ k ≤ n ∧ runSteps k s = .next t ∧ t.busy = false ∧ statusDone t.status = true

theorem doneWithin_of_engine {s : State} (h : Inv s) (hb : s.busy = true) (ht : scheduledTurn s = .engine) {n : Nat}
    (hn : 1 ≤ n) : doneWithin n s := by
  obtain ⟨l, hm⟩ := engineMoves_of_busy h hb ht
  obtain ⟨t, hstep, hdone⟩ := step_done_of_engineMoves hm
  exact ⟨1, t, Nat.le_refl 1, hn, runSteps_succ hstep 0, hdone⟩

theorem doneWithin_succ_of_step {s t : State} {n : Nat} (hstep : step s = .next t) (h : doneWithin n t) :
    doneWithin (n + 1) s := by
  obtain ⟨k, u, h1, hk, hrun, hdone⟩ := h
  exact ⟨k + 1, u, Nat.le_add_left 1 k, Nat.succ_le_succ hk, (runSteps_succ hstep k).trans hrun, hdone⟩

/-- By induction on the turns still scheduled: the host's turns leave the command in flight, the engine's complete it,
and when none is left the engine moves. -/
theorem doneWithin_length_turns (turns : List Turn) : ∀ {s : State}, Inv s → s.busy = true → s.turns = turns →
    (∀ t ∈ turns, t = .host ∨ t = .engine) → doneWithin (turns.length + 1) s := by
  induction turns with
  | nil =>
    intro s h hb hs _
    exact doneWithin_of_engine h hb (by simp [scheduledTurn, hs, hb]) (Nat.le_refl 1)
  | cons turn turns ih =>
    intro s h hb hs hall
    have ht : scheduledTurn s = turn := by simp [scheduledTurn, hs]
    rcases hall turn (by simp) with rfl | rfl
    · have hstep : step s = .next (hostStep (useTurn s)) := step_of_scheduledTurn h.cfg_ok ht
      refine doneWithin_succ_of_step hstep (ih (inv_hostStep (inv_useTurn h)) (busy_hostStep_of_busy hb) ?_ ?_)
      · simp [hs]
      · exact fun t hmem => hall t (by simp [hmem])
    · exact doneWithin_of_engine h hb ht (Nat.le_add_left 1 _)

/-! ## The statements about reset and progress -/

/-- Settles O58: no operation of a turn writes the configuration, which is all that slots 8 and 9 read. -/
theorem stepKeepsParameters : Obligations.StepKeepsParameters := by
  intro s t h
  have hcfg := cfg_of_step h
  exact ⟨hcfg, congrArg (fun c : Config => BitVec.ofNat 32 c.nElements) hcfg,
    congrArg (fun c : Config => BitVec.ofNat 32 c.bufBytes) hcfg⟩

/-- Settles O59: the configuration is legal, and a busy engine has its latch. -/
theorem stepAlwaysAnswersNext : Obligations.StepAlwaysAnswersNext := fun _ h => exists_step_next h

/-- Settles O55: the next state meets the invariant, which says so while reset is asserted; a release writes the reset
values once more. -/
theorem resetHoldsRegisters : Obligations.ResetHoldsRegisters := by
  intro s h hr
  obtain ⟨t, hstep⟩ := exists_step_next h
  have hrelease := resetLine_of_step hstep hr
  have hinv := stepKeepsInvariant s t h hstep
  have hregs : registersAtReset t := by
    cases hr' : t.resetLine with
    | true => exact hinv.reset_regs hr'
    | false =>
      rw [step_of_scheduledTurn h.cfg_ok (hrelease.1 hr')] at hstep
      have ht : releaseReset (useTurn s) = { resetMachine (useTurn s) with resetLine := false } := if_pos hr
      rw [← Host.Outcome.next.inj hstep, ht]
      exact registersAtReset_resetMachine (useTurn s)
  have hidle : t.busy = false := by
    obtain ⟨-, hstatus, -⟩ := hregs
    rw [State.busy, hstatus, statusBusy_zero]
  exact ⟨t, hstep, hregs, latch_eq_none_of_idle hinv hidle, hrelease⟩

/-- Settles O60: the bound is the length of the schedule and the engine's turn after it. -/
theorem acceptedCommandCompletes : Obligations.AcceptedCommandCompletes :=
  fun s h hb hall => doneWithin_length_turns s.turns h hb rfl hall

end Sys2Proof.Machine
end

section
/-! SUPPORT. What a command does not depend on (10_state.md R26; 70_reset_and_hazards.md R215): the contents of BUF, the
record of a broken contract, WERR, and bytes outside its ranges. -/

namespace Sys2Proof.Machine

/-! ## The attempt on a state changed in one field -/

theorem attempt_withHazard (c : Command) (m : Mode) (l : Latch) (s : State) (b : Bool) :
    attempt c m l { s with hazard := b } = { attempt c m l s with hazard := b } := by
  by_cases he : commandError c m s.cfg l = .none
  · rw [attempt_of_success he, attempt_of_success (s := { s with hazard := b }) he, effectOf_hazard]
  · rw [attempt_of_failure he, attempt_of_failure (s := { s with hazard := b }) he]

theorem attempt_withStatus (c : Command) (m : Mode) (l : Latch) (s : State) (w : Word) :
    attempt c m l { s with status := w } = { attempt c m l s with status := w } := by
  by_cases he : commandError c m s.cfg l = .none
  · rw [attempt_of_success he, attempt_of_success (s := { s with status := w }) he, effectOf_status]
  · rw [attempt_of_failure he, attempt_of_failure (s := { s with status := w }) he]

/-- The registers of an attempt do not depend on BUF. -/
theorem attempt_withBuf (c : Command) (m : Mode) (l : Latch) (s : State) (b : Memory) (d : Nat) :
    attempt c m l { s with buf := b, bufDraw := d } =
      { attempt c m l s with buf := (attempt c m l { s with buf := b, bufDraw := d }).buf, bufDraw := d } := by
  by_cases he : commandError c m s.cfg l = .none
  · rw [attempt_of_success he, attempt_of_success (s := { s with buf := b, bufDraw := d }) he]
    exact effectOf_buf c m l s b d
  · rw [attempt_of_failure he, attempt_of_failure (s := { s with buf := b, bufDraw := d }) he]

/-! ## Settling a broken contract on a state changed in one field -/

theorem settleHazard_withStatus (a b : Range) (s : State) (w : Word) :
    settleHazard a b { s with status := w } = { settleHazard a b s with status := w } := by
  unfold settleHazard
  split <;> rfl

theorem settleHazard_withBuf (a b : Range) (s : State) (m : Memory) (d : Nat) :
    settleHazard a b { s with buf := m, bufDraw := d } =
      { settleHazard a b s with buf := (settleHazard a b { s with buf := m, bufDraw := d }).buf, bufDraw := d } := by
  unfold settleHazard
  split <;> rfl

/-- Settling writes the bytes of both ranges and uses one draw, and nothing else. -/
theorem complete_settleHazard_of_hazard (e : ErrCode) (a b : Range) {s : State} (h : s.hazard = true) :
    complete e (settleHazard a b s) =
      { complete e { s with hazard := false } with buf := (settleHazard a b s).buf, draws := s.draws + 1 } := by
  rw [settleHazard_of_hazard a b s h]
  rfl

/-- The draws replace the same bytes whatever they replace. -/
theorem byteAt_settleHazard_congr (a b : Range) {s s' : State} {x : Nat} (hh : s.hazard = s'.hazard)
    (hd : s.draws = s'.draws) (hc : s.cfg = s'.cfg) (hx : s.byteAt x = s'.byteAt x) :
    (settleHazard a b s).byteAt x = (settleHazard a b s').byteAt x := by
  rw [byteAt_settleHazard, byteAt_settleHazard, hh, hd, hc, hx]

/-! ## One byte changed outside both ranges -/

theorem byteAt_memWrite_singleton (a : Nat) (v : Byte) (s : State) (x : Nat) :
    (memWrite a [v] s).byteAt x = if x = a then v else s.byteAt x := by
  have hone : [v].length = 1 := rfl
  rw [byteAt_memWrite, hone]
  by_cases hx : x = a
  · simp [hx]
  · rw [if_neg (by omega), if_neg hx]

/-- The attempt keeps a byte outside the destination, and its result does not depend on one outside the source. -/
theorem byteAt_attempt_memWrite (c : Command) (m : Mode) {l : Latch} {s : State} {a : Nat} (v : Byte)
    (hn : 0 < s.cfg.nElements)
    (hsrc : ¬ (l.src.toNat ≤ a ∧ a < l.src.toNat + srcSize c s.cfg l))
    (hdst : ¬ (l.dst.toNat ≤ a ∧ a < l.dst.toNat + dstSize c m s.cfg l)) (x : Nat) :
    (attempt c m l (memWrite a [v] s)).byteAt x = if x = a then v else (attempt c m l s).byteAt x := by
  by_cases hin : l.dst.toNat ≤ x ∧ x < l.dst.toNat + dstSize c m s.cfg l
  · have hne : x ≠ a := by
      rintro rfl
      exact hdst hin
    rw [if_neg hne]
    by_cases he : commandError c m s.cfg l = .none
    · have hv := valueError_of_success he
      have hres : resultBytes c m l (memWrite a [v] s) = resultBytes c m l s := by
        refine resultBytes_congr c m l s _ rfl fun y h1 h2 => ?_
        rw [byteAt_memWrite_singleton, if_neg (by omega)]
      rw [attempt_of_success (s := memWrite a [v] s) he, attempt_of_success he,
        byteAt_effectOf c m l (memWrite a [v] s) hn hv, byteAt_effectOf c m l s hn hv, hres, memWrite_cfg, if_pos hin,
        if_pos hin]
    · rw [attempt_of_failure (s := memWrite a [v] s) he, attempt_of_failure he, byteAt_memWrite_singleton, if_neg hne]
  · rw [byteAt_attempt_of_outside c m (s := memWrite a [v] s) hn hin, byteAt_attempt_of_outside c m hn hin,
      byteAt_memWrite_singleton]

theorem has_eq_false_iff (r : Range) (a : Nat) : r.has a = false ↔ ¬ (r.base ≤ a ∧ a < r.base + r.size) := by
  rw [← Bool.not_eq_true, has_iff]

/-! ## exec on a state changed in one field -/

theorem exec_withBuf {i : Instr} {s t : State} (m : Memory) (d : Nat) (h : exec i s = .next t) :
    ∃ t', exec i { s with buf := m, bufDraw := d } = .next t' ∧ t' = { t with buf := t'.buf, bufDraw := d } := by
  obtain ⟨l, hl, rfl⟩ := exec_attempt_cases h
  refine ⟨_, exec_eq_attempt i (s := { s with buf := m, bufDraw := d }) hl, ?_⟩
  rw [attempt_withBuf, settleHazard_withBuf]
  rfl

theorem bufDraw_of_exec {i : Instr} {s t : State} (h : exec i s = .next t) : t.bufDraw = s.bufDraw := by
  obtain ⟨l, -, rfl⟩ := exec_attempt_cases h
  simp

/-- The bytes after a command whose state had one byte outside both ranges changed. -/
theorem byteAt_exec_memWrite {i : Instr} {s t t' : State} {l : Latch} {a : Nat} {v : Byte} (hn : 0 < s.cfg.nElements)
    (hl : s.latch = some l) (hsrc : ¬ (l.src.toNat ≤ a ∧ a < l.src.toNat + srcSize (commandOf i) s.cfg l))
    (hdst : ¬ (l.dst.toNat ≤ a ∧ a < l.dst.toNat + dstSize (commandOf i) (modeOf i) s.cfg l))
    (h : exec i s = .next t) (h' : exec i (memWrite a [v] s) = .next t') (x : Nat) :
    t'.byteAt x = (memWrite a [v] t).byteAt x := by
  rw [exec_eq_attempt i hl] at h
  rw [exec_eq_attempt i (s := memWrite a [v] s) hl] at h'
  cases h
  cases h'
  have hx := byteAt_attempt_memWrite (commandOf i) (modeOf i) v hn hsrc hdst x
  rw [byteAt_memWrite_singleton, byteAt_complete, byteAt_complete]
  split at hx
  case isTrue heq =>
    subst heq
    rw [if_pos rfl]
    exact (byteAt_settleHazard_of_outside _ _ _ x ((has_eq_false_iff _ x).2 hsrc)
      ((has_eq_false_iff _ x).2 hdst)).trans hx
  case isFalse hne =>
    rw [if_neg hne]
    exact byteAt_settleHazard_congr _ _ (by simp) (by simp) (by simp) hx

/-! ## The statements about hazards -/

/-- Settles O31: the settling writes inside both ranges only, and the attempt inside the destination only. -/
theorem brokenContractSparesRegisters : Obligations.BrokenContractSparesRegisters := by
  intro i s l hl hh hok
  refine ⟨_, _, exec_eq_attempt i hl, exec_of_hazard_false i (s := { s with hazard := false }) hl rfl, ?_,
    fun x hsrc hdst => ?_⟩
  · rw [attempt_withHazard _ _ l s false, complete_settleHazard_of_hazard _ _ _ ((attempt_hazard _ _ l s).trans hh),
      attempt_draws (commandOf i) (modeOf i) l s]
    rfl
  · rw [byteAt_complete, byteAt_settleHazard_of_outside _ _ _ x ((has_eq_false_iff _ x).2 hsrc)
      ((has_eq_false_iff _ x).2 hdst)]
    exact byteAt_attempt_of_outside _ _ (nElements_pos hok) hdst

/-- Settles O32: the checks, COUNT, NBLOBS and OUTLEN are computed from the latch and the configuration. -/
theorem registersIgnoreBuf : Obligations.RegistersIgnoreBuf := fun _ _ _ m d h => exec_withBuf m d h

/-- Settles O33: the registers ignore BUF, and the bytes are compared one by one. -/
theorem harmlessHostWritesCommute : Obligations.HarmlessHostWritesCommute := by
  intro i s t l a v hok hl hsrc hdst h
  obtain ⟨t', h', hframe⟩ := exec_withBuf (s.buf.write a [v]) s.bufDraw h
  rw [← bufDraw_of_exec h] at hframe
  exact ⟨t', h', hframe, byteAt_exec_memWrite (nElements_pos hok) hl hsrc hdst h h'⟩

/-- Settles O34: the completion procedure and WERR write different bits, and nothing else reads STATUS. -/
theorem werrNeverAffectsResult : Obligations.WerrNeverAffectsResult := by
  intro i s t h
  obtain ⟨l, hl, rfl⟩ := exec_attempt_cases h
  rw [exec_eq_attempt i (s := { s with status := statusDropped s.status }) hl, attempt_withStatus,
    settleHazard_withStatus]
  simp only [complete, statusCompleted_dropped, settleHazard_status, attempt_status]

end Sys2Proof.Machine
end

section
/-! SUPPORT. The two ports (10_state.md R37; 20_memory.md R62; 30_encoding.md R92): one action of the host as a step. -/

namespace Sys2Proof.Machine

/-! ## The register port -/

theorem step_writeReg_of_idle {s : State} {k : BitVec 4} {v : Word} {rest : List HostAction}
    (h : hostMoves s (.writeReg k v) rest) (hb : s.busy = false) (hr : s.resetLine = false) :
    step s = .next { writeSlotIdle k v (useTurn s) with script := rest } := by
  rw [step_writeReg h, writeSlot_of_idle k v (useTurn s) hr hb]

/-! ## The buffer port -/

theorem step_writeByte {s : State} {a : Nat} {v : Byte} {rest : List HostAction}
    (h : hostMoves s (.writeByte a v) rest) :
    step s = .next { hostWriteByte a v (useTurn s) with script := rest } := step_of_hostMoves h

theorem step_readByte {s : State} {a : Nat} {rest : List HostAction} (h : hostMoves s (.readByte a) rest) :
    step s = .next { observeByte a (useTurn s) with script := rest } := step_of_hostMoves h

theorem hostWriteByte_frame (a : Nat) (v : Byte) (s : State) :
    hostWriteByte a v s = { s with buf := (hostWriteByte a v s).buf, hazard := (hostWriteByte a v s).hazard } := by
  unfold hostWriteByte
  split <;> rfl

theorem byteAt_hostWriteByte (a : Nat) (v : Byte) (s : State) (x : Nat) :
    (hostWriteByte a v s).byteAt x = if x = a ∧ a < s.cfg.bufBytes then v else s.byteAt x := by
  by_cases ha : a < s.cfg.bufBytes
  · rw [hostWriteByte_of_lt a v s ha]
    simp only [ha, and_true]
    exact byteAt_memWrite_singleton a v s x
  · rw [hostWriteByte_of_ge a v s (Nat.not_lt.1 ha), if_neg (by simp [ha])]

/-- The contract record after a byte write (70_reset_and_hazards.md R215). -/
theorem hazard_hostWriteByte {a : Nat} {s : State} (v : Byte) (ha : a < s.cfg.bufBytes) :
    (hostWriteByte a v s).hazard = (s.hazard || (s.busy && inRunningRanges s a)) := by
  rw [hostWriteByte_of_lt a v s ha]

theorem observeByte_of_outside {a : Nat} {s : State} (h : s.cfg.bufBytes ≤ a) :
    observeByte a s = { s with seen := .byte a 0#8 :: s.seen } := by
  have hlt := Nat.not_lt.2 h
  simp [observeByte, hostReadValue, readDraws, hlt]

theorem observeByte_of_quiet {a : Nat} {s : State} (ha : a < s.cfg.bufBytes)
    (h : s.busy = false ∨ inRunningDst s a = false) :
    observeByte a s = { s with seen := .byte a (s.byteAt a) :: s.seen } := by
  have hquiet : (s.busy && inRunningDst s a) = false := by rcases h with h | h <;> simp [h]
  simp [observeByte, hostReadValue, readDraws, ha, hquiet]

theorem observeByte_of_running {a : Nat} {s : State} (ha : a < s.cfg.bufBytes) (hb : s.busy = true)
    (hd : inRunningDst s a = true) :
    observeByte a s = { s with seen := .byte a (Config.freeByte s.draws a) :: s.seen, draws := s.draws + 1 } := by
  simp [observeByte, hostReadValue, readDraws, ha, hb, hd]

/-! ## The statements about the ports -/

/-- Settles O6: the slots that an idle write sets, one by one, and those that ignore it. -/
theorem idleRegisterWrites : Obligations.IdleRegisterWrites := by
  intro s k v rest h hb hr
  have hstep := step_writeReg_of_idle h hb hr
  refine ⟨?_, ?_, ?_, ?_, ?_, fun hk => step_writeReg_of_readOnly h hb hk⟩
  all_goals
    rintro rfl
    exact hstep

/-- Settles O9: the register map, slot by slot. -/
theorem registerReads : Obligations.RegisterReads := by
  intro s k rest h
  have hok : s.cfg.ok := h.1
  refine ⟨readSlot s k, step_readReg h, ?_, ?_, ?_, ?_, ?_, ?_, ?_, ?_, ?_, ?_, readSlot_of_reserved s k⟩
  case refine_9 => rintro rfl; exact toNat_readSlot_nelem hok
  case refine_10 => rintro rfl; exact toNat_readSlot_bufsize hok
  all_goals rintro rfl; rfl

/-- Settles O10: a byte write changes BUF and the contract record, and of BUF one byte. -/
theorem hostByteWrites : Obligations.HostByteWrites := by
  intro s a v rest h
  have hbyte := byteAt_hostWriteByte a v (useTurn s)
  refine ⟨_, step_writeByte h, ?_, fun ha => ?_, fun x hx => ?_, fun ha => ?_⟩
  · rw [hostWriteByte_frame]
    rfl
  · exact (hbyte a).trans (if_pos ⟨rfl, ha⟩)
  · exact (hbyte x).trans (if_neg fun ⟨heq, hlt⟩ => hx.elim (· heq) (Nat.not_le.2 hlt))
  · rw [hostWriteByte_of_ge a v (useTurn s) ha]
    rfl

/-- Settles O12: the record is set exactly by a write into the running command's ranges. -/
theorem contractBreachRecorded : Obligations.ContractBreachRecorded := by
  intro s l i a v rest h hb hl hd ha
  have hbreach := inRunningRanges_iff (useTurn s) l i a hl hd
  have hrecord : (hostWriteByte a v (useTurn s)).hazard = (s.hazard || inRunningRanges (useTurn s) a) := by
    rw [hazard_hostWriteByte (s := useTurn s) v ha, busy_useTurn, hb, Bool.true_and, useTurn_hazard]
  refine ⟨_, step_writeByte h, fun hin => ?_, fun hsrc hdst => ?_⟩
  · exact hrecord.trans (by rw [hbreach.2 hin, Bool.or_true])
  · have hout : inRunningRanges (useTurn s) a = false := by
      rw [← Bool.not_eq_true, hbreach]
      exact fun hin => hin.elim hsrc hdst
    exact hrecord.trans (by rw [hout, Bool.or_false])

/-- Settles O11: the three cases of a byte read. -/
theorem hostByteReads : Obligations.HostByteReads := by
  intro s a rest h
  refine ⟨fun ha => ?_, fun ha hquiet => ?_, fun ha hb hd => ⟨Config.freeByte s.draws a, ?_⟩⟩
  · rw [step_readByte h, observeByte_of_outside (s := useTurn s) ha]
    rfl
  · rw [step_readByte h, observeByte_of_quiet (s := useTurn s) ha hquiet]
    rfl
  · rw [step_readByte h, observeByte_of_running (s := useTurn s) ha hb hd]
    rfl

/-- Settles O13: both statements read STATUS, and go on, stay or end by what they read. -/
theorem waitAndCheck : Obligations.WaitAndCheck := by
  intro s v rest
  refine ⟨fun h hb => ?_, fun h hb => ?_, fun h hv => ?_, fun h hv => ?_⟩ <;> rw [step_of_hostMoves h]
  · rw [hostAct_wait_of_busy rest (s := useTurn s) hb]
    rfl
  · rw [hostAct_wait_of_idle rest (s := useTurn s) hb]
    rfl
  · rw [hostAct_check_of_eq rest (s := useTurn s) hv]
    rfl
  · rw [hostAct_check_of_ne rest (s := useTurn s) hv]
    rfl

end Sys2Proof.Machine
end

section
/-! SUPPORT. The pure functions compared by their numbers (00_scope.md R11; 40_packer.md R114; 41_assembler.md R146,
R147). -/

namespace Sys2Proof.Machine

/-! ## chunk_count (40_packer.md R101) -/

theorem chunkCount_le_iff {len w q : Nat} (hw : 0 < w) : chunkCount len w ≤ q ↔ 8 * len ≤ q * w :=
  ceilDiv_le_iff (8 * len) w q hw

theorem lt_chunkCount_iff {len w q : Nat} (hw : 0 < w) : q < chunkCount len w ↔ q * w < 8 * len := by
  rw [← not_le, chunkCount_le_iff hw, not_le]

/-- Wider chunks are no more. -/
theorem chunkCount_le_of_width_le {w w' : Nat} (hw : 0 < w) (h : w ≤ w') (len : Nat) :
    chunkCount len w' ≤ chunkCount len w := by
  rw [chunkCount_le_iff (hw.trans_le h)]
  exact (eight_mul_le_chunkCount_mul len w hw).trans (Nat.mul_le_mul_left _ h)

/-- Below 63 bytes the payload ends before the saved bits of two chunks make up for a third one. -/
theorem chunkCount_naive_le_tight {len : Nat} (h : len < 63) : chunkCount len 248 ≤ chunkCount len 254 := by
  have hfit := eight_mul_le_chunkCount_mul len 254 (by omega)
  rw [chunkCount_le_iff (by omega)]
  omega

/-- From 1303 bytes on a payload has more than 42 chunks, and each saves 6 bits: more than a chunk's 254 in all. -/
theorem chunkCount_tight_lt_naive {len : Nat} (h : 1303 ≤ len) : chunkCount len 254 < chunkCount len 248 := by
  have hmany : 42 < chunkCount len 248 := (lt_chunkCount_iff (by omega)).2 (by omega)
  have hfit := eight_mul_le_chunkCount_mul len 248 (by omega)
  obtain ⟨q, hq⟩ := Nat.exists_eq_succ_of_ne_zero (Nat.ne_zero_of_lt hmany)
  rw [hq, Nat.lt_succ_iff, chunkCount_le_iff (by omega)]
  omega

theorem ceilDiv_mul_self (n w : Nat) (hw : 0 < w) : ceilDiv (n * w) w = n :=
  Nat.le_antisymm ((ceilDiv_le_iff _ _ _ hw).2 (Nat.le_refl _))
    (Nat.le_of_mul_le_mul_right (le_ceilDiv_mul (n * w) w hw) hw)

/-- A payload of the capacity fills `n` chunks to the last bit, where its bits are whole bytes. -/
theorem chunkCount_blobCapacityBytes {n w : Nat} (hw : 0 < w) (h : n * w % 8 = 0) :
    chunkCount (blobCapacityBytes n w) w = n := by
  rw [chunkCount, blobCapacityBytes, Nat.mul_div_cancel' (Nat.dvd_of_mod_eq_zero h), ceilDiv_mul_self n w hw]

/-! ## decode on any blobs (41_assembler.md R147) -/

theorem decodeBlobs_of_short {n len w : Nat} {blobs : List Blob} (h : chunkCount len w > n * blobs.length) :
    decodeBlobs n blobs w len = .error .chunkCountMismatch := by
  rw [decodeBlobs, (disassemble_eq_error_iff n blobs w _ _).2 ⟨rfl, h⟩]

theorem decodeBlobs_of_enough {n len w : Nat} {blobs : List Blob} (h : chunkCount len w ≤ n * blobs.length) :
    decodeBlobs n blobs w len = unpack (blobs.flatten.take (chunkCount len w)) w (8 * len) := by
  rw [decodeBlobs, disassemble_eq_ok n blobs w _ h]

theorem unpack_eq_ok_okBytes {cs : List FieldElement} {w bitlen : Nat} (h : bitlen ≤ cs.length * w) :
    unpack cs w bitlen = .ok (okBytes (unpack cs w bitlen)) := by
  rw [unpack_eq_ok cs w bitlen h]
  rfl

/-! ## The statements about the pure functions -/

/-- Settles O36: the quotient by its bound, and the bytes of a field element by position. -/
theorem helperFunctions : Obligations.HelperFunctions := by
  refine ⟨fun a b q hb => ceilDiv_le_iff a b q hb, fun v k hk => ?_,
    fun v => ⟨length_beBytes32 v, fromBe32_beBytes32 v⟩, beBytes32_fromBe32⟩
  have hk' : k < (beBytes32 v).length := by rwa [length_beBytes32]
  rw [List.getElem?_eq_getElem hk', getElem_beBytes32]

/-- Settles O44: the inequality for every length, and the lengths around its first and last equality. -/
theorem densityLaw : Obligations.DensityLaw := by
  have hle := chunkCount_le_of_width_le (w := 248) (w' := 254) (by omega) (by omega)
  exact ⟨hle, fun len h => Nat.le_antisymm (hle len) (chunkCount_naive_le_tight h), ⟨rfl, rfl⟩,
    by simp [chunkCount, ceilDiv], rfl, ⟨rfl, rfl⟩, fun len h => chunkCount_tight_lt_naive h⟩

/-- Settles O47: enough elements hold enough bits, so that `unpack` does not fail. -/
theorem decodeNeverLengthMismatch : Obligations.DecodeNeverLengthMismatch := by
  intro n blobs w len _ hw hsize
  refine ⟨decodeBlobs_of_short, fun hle => ?_⟩
  have hlen : (blobs.flatten.take (chunkCount len w)).length = chunkCount len w := by
    rw [List.length_take, length_flatten_blobs hsize, Nat.min_eq_left hle]
  have hfit : 8 * len ≤ (blobs.flatten.take (chunkCount len w)).length * w := by
    rw [hlen]
    exact eight_mul_le_chunkCount_mul len w (by omega)
  exact ⟨_, (decodeBlobs_of_enough hle).trans (unpack_eq_ok_okBytes hfit), length_okBytes_unpack _ w len hfit⟩

/-- Settles O49: the capacity fills `n` chunks, and `n` chunks fill one blob. -/
theorem capacityFillsOneBlob : Obligations.CapacityFillsOneBlob := by
  refine ⟨by decide, by decide, fun n w hn hw h8 => ?_⟩
  have hcount := chunkCount_blobCapacityBytes (n := n) (w := w) (by omega) h8
  refine ⟨hcount, ?_⟩
  rw [hcount, blobCount_eq_one_iff hn]

end Sys2Proof.Machine
end

section
/-! SUPPORT. The completion of each command and its result (40_packer.md R120, R121; 41_assembler.md R150 to R153). -/

namespace Sys2Proof.Machine

/-! ## The state a successful command leaves -/

/-- The effect, with STATUS and the latch as the completion procedure leaves them (60_exceptions.md R189). -/
def succeed (c : Command) (m : Mode) (l : Latch) (s : State) : State :=
  { effectOf c m l s with status := statusCompleted .none s.status, latch := none }

theorem complete_effectOf_eq_succeed (c : Command) (m : Mode) (l : Latch) {s : State} (h : s.hazard = false) :
    complete .none (effectOf c m l s) = succeed c m l s := by
  have hframe := effectOf_frame c m l s
  have hstatus : (effectOf c m l s).status = s.status := (congrArg State.status hframe :)
  have hhazard : (effectOf c m l s).hazard = false := (congrArg State.hazard hframe :).trans h
  simp only [complete, succeed, hstatus, hhazard]

theorem exec_eq_succeed {i : Instr} {c : Command} {s : State} {l : Latch} (hc : commandOf i = c)
    (hl : s.latch = some l) (hh : s.hazard = false) (he : commandError c (modeOf i) s.cfg l = .none) :
    exec i s = .next (succeed c (modeOf i) l s) := by
  subst hc
  rw [exec_of_success i s l hl hh he, complete_effectOf_eq_succeed _ _ l hh]

theorem completedWith_succeed (c : Command) (m : Mode) (l : Latch) (s : State) :
    completedWith 0#4 s.status (succeed c m l s).status := completedWith_completed .none s.status

theorem memRead_succeed {c : Command} {m : Mode} {l : Latch} {s : State} (hok : s.cfg.ok)
    (he : commandError c m s.cfg l = .none) :
    memRead (succeed c m l s) l.dst.toNat (dstSize c m s.cfg l) = resultBytes c m l s :=
  memRead_effectOf c m l s (nElements_pos hok) (valueError_of_success he)

theorem byteAt_succeed_of_outside {c : Command} {m : Mode} {l : Latch} {s : State} (hok : s.cfg.ok)
    (he : commandError c m s.cfg l = .none) (x : Nat)
    (hx : x < l.dst.toNat ∨ l.dst.toNat + dstSize c m s.cfg l ≤ x) :
    (succeed c m l s).byteAt x = s.byteAt x :=
  (byteAt_effectOf c m l s (nElements_pos hok) (valueError_of_success he) x).trans (if_neg (by omega))

/-- The bounds check keeps the sizes that COUNT, NBLOBS and OUTLEN hold within a register word. -/
theorem dstSize_le_max {c : Command} {m : Mode} {cfg : Config} {l : Latch} (hok : cfg.ok)
    (he : commandError c m cfg l = .none) : dstSize c m cfg l ≤ 2 ^ 32 - 1 := by
  obtain ⟨-, ⟨-, hbuf⟩, -⟩ := hok
  have hdst := dst_le_bufBytes_of_success he
  omega

/-- The two instructions of a command and their widths (30_encoding.md R83). -/
theorem width_cases {i tight naive : Instr} {c : Command} {w : Nat}
    (ht : commandOf tight = c ∧ usableBits (modeOf tight) = 254)
    (hn : commandOf naive = c ∧ usableBits (modeOf naive) = 248)
    (h : (i = tight ∧ w = 254) ∨ (i = naive ∧ w = 248)) : commandOf i = c ∧ usableBits (modeOf i) = w := by
  rcases h with ⟨rfl, rfl⟩ | ⟨rfl, rfl⟩
  exacts [ht, hn]

/-! ## The results as field elements -/

/-- The blobs of `assemble` are the chunks and then zero elements (41_assembler.md R140, R141). -/
theorem flatten_assemble_eq_append (n : Nat) (hn : 0 < n) (cs : List FieldElement) :
    (assemble n cs).flatten = cs ++ List.replicate (n * blobCount n cs.length - cs.length) 0#256 := by
  have hle := le_mul_blobCount n cs.length hn
  refine List.ext_getElem (by rw [length_flatten_assemble n hn]; simp [hle]) fun e h1 h2 => ?_
  simp only [flatten_assemble n hn, List.getElem_map, List.getElem_range]
  by_cases he : e < cs.length
  · rw [List.getElem_append_left he, List.getD_eq_getElem _ _ he]
  · rw [List.getElem_append_right (Nat.not_lt.1 he), List.getElem_replicate, List.getD_eq_default _ _ (Nat.not_lt.1 he)]

/-- A sequence read as blobs and taken apart again (41_assembler.md R143; 20_memory.md R66). -/
theorem disassemble_blobsOf {n k total : Nat} (h : total ≤ n * k) (es : List FieldElement) (w : Nat) :
    disassemble n (blobsOf n k es) w total = .ok (es.take total) := by
  rw [disassemble_eq_ok _ _ _ _ (by rwa [length_blobsOf]), flatten_blobsOf, List.take_take, Nat.min_eq_left h]

/-- ASSEMBLE copies the bytes of the source and adds zero bytes: the elements of the blobs (41_assembler.md R150). -/
theorem resultBytes_assemble (m : Mode) (l : Latch) {s : State} (hn : 0 < s.cfg.nElements) :
    resultBytes .assemble m l s =
      elementBytes (assemble s.cfg.nElements (loadElements s l.src.toNat l.count.toNat)).flatten := by
  have hsize : dstSize .assemble m s.cfg l - srcSize .assemble s.cfg l =
      32 * (s.cfg.nElements * blobCount s.cfg.nElements l.count.toNat - l.count.toNat) := by
    simp only [dstSize, srcSize, Nat.mul_assoc, Nat.mul_sub]
  rw [flatten_assemble_eq_append _ hn, elementBytes_append, elementBytes_loadElements, elementBytes_replicate_zero,
    length_loadElements, resultBytes, hsize]
  rfl

/-- DISASSEMBLE copies the bytes of the first elements (41_assembler.md R151). -/
theorem resultBytes_disassemble (m : Mode) (l : Latch) (s : State) :
    resultBytes .disassemble m l s =
      elementBytes ((loadElements s l.src.toNat (s.cfg.nElements * l.nblobs.toNat)).take l.count.toNat) := by
  rw [← take_elementBytes, elementBytes_loadElements, ← Nat.mul_assoc]
  rfl

/-- DECODE unpacks the first elements of the blobs (41_assembler.md R153). -/
theorem resultBytes_decode {m : Mode} {l : Latch} {s : State}
    (h : chunkCount l.len.toNat (usableBits m) ≤ s.cfg.nElements * l.nblobs.toNat) :
    resultBytes .decode m l s =
      okBytes (unpack ((loadElements s l.src.toNat (s.cfg.nElements * l.nblobs.toNat)).take
        (chunkCount l.len.toNat (usableBits m))) (usableBits m) (8 * l.len.toNat)) := by
  rw [resultBytes, decodeBlobs_eq _ _ _ _ _ h]

/-! ## What PACK and ENCODE hand on -/

/-- COUNT after PACK is the exact chunk count: 32 bytes to each chunk fit in BUF. -/
theorem toNat_count_succeed_pack {m : Mode} {l : Latch} {s : State} (hok : s.cfg.ok)
    (he : commandError .pack m s.cfg l = .none) :
    (succeed .pack m l s).count.toNat = chunkCount l.len.toNat (usableBits m) := by
  have hmax : 32 * chunkCount l.len.toNat (usableBits m) ≤ 2 ^ 32 - 1 := dstSize_le_max hok he
  exact toNat_ofNat_of_le_max (n := chunkCount _ _) (by omega)

theorem loadElements_succeed_pack {m : Mode} {l : Latch} {s : State} (hok : s.cfg.ok)
    (he : commandError .pack m s.cfg l = .none) :
    loadElements (succeed .pack m l s) l.dst.toNat (chunkCount l.len.toNat (usableBits m)) =
      pack (memRead s l.src.toNat l.len.toNat) (usableBits m) :=
  loadElements_eq_of_memRead (by rw [length_pack, length_memRead]) (memRead_succeed hok he)

/-- NBLOBS after ENCODE is the exact number of blobs. -/
theorem toNat_nblobs_succeed_encode {m : Mode} {l : Latch} {s : State} (hok : s.cfg.ok)
    (he : commandError .encode m s.cfg l = .none) :
    (succeed .encode m l s).nblobs.toNat = blobCount s.cfg.nElements (chunkCount l.len.toNat (usableBits m)) := by
  have hn := nElements_pos hok
  have hmax : 32 * s.cfg.nElements * blobCount s.cfg.nElements (chunkCount l.len.toNat (usableBits m)) ≤ 2 ^ 32 - 1 :=
    dstSize_le_max hok he
  exact toNat_ofNat_of_le_max ((Nat.le_mul_of_pos_left _ (show 0 < 32 * s.cfg.nElements by omega)).trans hmax)

/-- COUNT after ENCODE is the exact chunk count: the blobs hold all the chunks and fit in BUF. -/
theorem toNat_count_succeed_encode {m : Mode} {l : Latch} {s : State} (hok : s.cfg.ok)
    (he : commandError .encode m s.cfg l = .none) :
    (succeed .encode m l s).count.toNat = chunkCount l.len.toNat (usableBits m) := by
  have hfit := le_mul_blobCount s.cfg.nElements (chunkCount l.len.toNat (usableBits m)) (nElements_pos hok)
  have hmax : 32 * s.cfg.nElements * blobCount s.cfg.nElements (chunkCount l.len.toNat (usableBits m)) ≤ 2 ^ 32 - 1 :=
    dstSize_le_max hok he
  rw [Nat.mul_assoc] at hmax
  exact toNat_ofNat_of_le_max (n := chunkCount _ _) (by omega)

theorem loadElements_succeed_encode {m : Mode} {l : Latch} {s : State} (hok : s.cfg.ok)
    (he : commandError .encode m s.cfg l = .none) :
    loadElements (succeed .encode m l s) l.dst.toNat
        (s.cfg.nElements * blobCount s.cfg.nElements (chunkCount l.len.toNat (usableBits m))) =
      (encodePayload s.cfg.nElements (memRead s l.src.toNat l.len.toNat) (usableBits m)).flatten := by
  have hmem := memRead_succeed hok he
  refine loadElements_eq_of_memRead ?_ (by rw [← Nat.mul_assoc]; exact hmem)
  rw [encodePayload, length_flatten_assemble _ (nElements_pos hok), length_pack, length_memRead]

/-! ## The statements about the commands -/

/-- Settles O23: the destination holds the bytes of the chunks of `pack`. -/
theorem packCompletes : Obligations.PackCompletes := by
  rintro i w count s l hi rfl hok hl hh hsrc hdst hdisjoint
  obtain ⟨hc, rfl⟩ := width_cases (c := .pack) ⟨rfl, rfl⟩ ⟨rfl, rfl⟩ hi
  have he : commandError .pack (modeOf i) s.cfg l = .none :=
    (commandError_eq_none_iff ..).2 ⟨rfl, hsrc, hdst, hdisjoint⟩
  exact ⟨_, exec_eq_succeed hc hl hh he, rfl, completedWith_succeed .pack _ l s, toNat_count_succeed_pack hok he,
    toNat_ofNat_of_le_max (dstSize_le_max hok he), loadElements_succeed_pack hok he,
    byteAt_succeed_of_outside hok he⟩

/-- Settles O24: the destination holds the bytes of `unpack`, which the value check keeps from failing. -/
theorem unpackCompletes : Obligations.UnpackCompletes := by
  rintro i w s l hi hok hl hh hfit hsrc hdst hdisjoint
  obtain ⟨hc, rfl⟩ := width_cases (c := .unpack) ⟨rfl, rfl⟩ ⟨rfl, rfl⟩ hi
  have he : commandError .unpack (modeOf i) s.cfg l = .none :=
    (commandError_eq_none_iff ..).2 ⟨(valueError_unpack_none_iff ..).2 hfit, hsrc, hdst, hdisjoint⟩
  have hmem : memRead (succeed .unpack (modeOf i) l s) l.dst.toNat l.len.toNat = _ := memRead_succeed hok he
  refine ⟨_, exec_eq_succeed hc hl hh he, rfl, completedWith_succeed .unpack _ l s, ?_,
    byteAt_succeed_of_outside hok he⟩
  rw [hmem]
  exact unpack_eq_ok_okBytes (by rwa [length_loadElements])

/-- Settles O25: the destination holds the bytes of the blobs' elements. -/
theorem assembleCompletes : Obligations.AssembleCompletes := by
  rintro i n nb s l hi rfl rfl hok hl hh hsrc hdst hdisjoint
  have hc : commandOf i = .assemble := by rcases hi with rfl | rfl <;> rfl
  have hn := nElements_pos hok
  have he : commandError .assemble (modeOf i) s.cfg l = .none :=
    (commandError_eq_none_iff ..).2 ⟨rfl, hsrc, hdst, hdisjoint⟩
  have hmax : 32 * s.cfg.nElements * blobCount s.cfg.nElements l.count.toNat ≤ 2 ^ 32 - 1 := dstSize_le_max hok he
  have hnb := (Nat.le_mul_of_pos_left _ (show 0 < 32 * s.cfg.nElements by omega)).trans hmax
  have hmem := (memRead_succeed hok he).trans (resultBytes_assemble (modeOf i) l hn)
  refine ⟨_, exec_eq_succeed hc hl hh he, rfl, completedWith_succeed .assemble _ l s, toNat_ofNat_of_le_max hnb,
    toNat_ofNat_of_le_max hmax, ?_, byteAt_succeed_of_outside hok he⟩
  refine loadElements_eq_of_memRead ?_ (by rw [← Nat.mul_assoc]; exact hmem)
  rw [length_flatten_assemble _ hn, length_loadElements]
  rfl

/-- Settles O26: the destination holds the bytes of the first elements of the blobs. -/
theorem disassembleCompletes : Obligations.DisassembleCompletes := by
  rintro i n k s l hi rfl rfl hok hl hh hcount hsrc hdst hdisjoint
  have hc : commandOf i = .disassemble := by rcases hi with rfl | rfl <;> rfl
  have he : commandError .disassemble (modeOf i) s.cfg l = .none :=
    (commandError_eq_none_iff ..).2 ⟨(valueError_disassemble_none_iff ..).2 hcount, hsrc, hdst, hdisjoint⟩
  have hmem := (memRead_succeed hok he).trans (resultBytes_disassemble (modeOf i) l s)
  refine ⟨_, exec_eq_succeed hc hl hh he, rfl, completedWith_succeed .disassemble _ l s,
    toNat_ofNat_of_le_max (dstSize_le_max hok he), fun w => ?_, byteAt_succeed_of_outside hok he⟩
  rw [disassemble_blobsOf hcount, loadElements_eq_of_memRead (by simp [hcount]) hmem]

/-- Settles O27: the destination holds the bytes of the elements of `pack`'s blobs. -/
theorem encodeCompletes : Obligations.EncodeCompletes := by
  rintro i w n count nb s l hi rfl rfl rfl hok hl hh hsrc hdst hdisjoint
  obtain ⟨hc, rfl⟩ := width_cases (c := .encode) ⟨rfl, rfl⟩ ⟨rfl, rfl⟩ hi
  have he : commandError .encode (modeOf i) s.cfg l = .none :=
    (commandError_eq_none_iff ..).2 ⟨rfl, hsrc, hdst, hdisjoint⟩
  exact ⟨_, exec_eq_succeed hc hl hh he, rfl, completedWith_succeed .encode _ l s, toNat_count_succeed_encode hok he,
    toNat_nblobs_succeed_encode hok he, toNat_ofNat_of_le_max (dstSize_le_max hok he),
    loadElements_succeed_encode hok he, byteAt_succeed_of_outside hok he⟩

/-- Settles O28: the destination holds the bytes of `unpack`, of as many elements as hold the payload. -/
theorem decodeCompletes : Obligations.DecodeCompletes := by
  rintro i w n k count s l hi rfl rfl rfl hok hl hh hcount hsrc hdst hdisjoint
  obtain ⟨hc, rfl⟩ := width_cases (c := .decode) ⟨rfl, rfl⟩ ⟨rfl, rfl⟩ hi
  have he : commandError .decode (modeOf i) s.cfg l = .none :=
    (commandError_eq_none_iff ..).2 ⟨(valueError_decode_none_iff ..).2 hcount, hsrc, hdst, hdisjoint⟩
  have hmem : memRead (succeed .decode (modeOf i) l s) l.dst.toNat l.len.toNat = _ :=
    (memRead_succeed hok he).trans (resultBytes_decode hcount)
  have hmax : chunkCount l.len.toNat (usableBits (modeOf i)) ≤ 2 ^ 32 - 1 := by
    obtain ⟨-, ⟨-, hbuf⟩, -⟩ := hok
    rw [Nat.mul_assoc] at hsrc
    exact hcount.trans (by omega)
  refine ⟨_, exec_eq_succeed hc hl hh he, rfl, completedWith_succeed .decode _ l s, toNat_ofNat_of_le_max hmax,
    ⟨_, disassemble_blobsOf hcount _ _, ?_⟩, byteAt_succeed_of_outside hok he⟩
  rw [hmem]
  refine unpack_eq_ok_okBytes ?_
  rw [List.length_take, length_loadElements, Nat.min_eq_left hcount]
  exact eight_mul_le_chunkCount_mul _ _ (usableBits_pos _)

end Sys2Proof.Machine
end

section
/-! SUPPORT. One command after another (40_packer.md R113; 41_assembler.md R148, R152): each finds the bytes and the
counts that the one before it left. -/

namespace Sys2Proof.Machine

/-! ## What a successful command hands on -/

theorem succeed_of_err {i : Instr} {c : Command} {s t : State} {l : Latch} (hc : commandOf i = c)
    (h : exec i s = .next t) (hl : s.latch = some l) (hh : s.hazard = false) (he : statusErr t.status = 0#4) :
    commandError c (modeOf i) s.cfg l = .none ∧ t = succeed c (modeOf i) l s := by
  subst hc
  obtain ⟨hnone, rfl⟩ := success_of_err hl hh h he
  exact ⟨hnone, complete_effectOf_eq_succeed _ _ l hh⟩

theorem hazard_of_exec {i : Instr} {s t : State} (h : exec i s = .next t) : t.hazard = false := by
  obtain ⟨l, -, rfl⟩ := exec_attempt_cases h
  rfl

theorem memRead_of_exec {i : Instr} {c : Command} {s t : State} {l : Latch} (hc : commandOf i = c)
    (h : exec i s = .next t) (hl : s.latch = some l) (hh : s.hazard = false) (he : statusErr t.status = 0#4)
    (hok : s.cfg.ok) : memRead t l.dst.toNat (dstSize c (modeOf i) s.cfg l) = resultBytes c (modeOf i) l s := by
  obtain ⟨hnone, rfl⟩ := succeed_of_err hc h hl hh he
  exact memRead_succeed hok hnone

/-- COUNT after PACK counts the chunks that the destination holds. -/
theorem pack_hands_on {i : Instr} {s t : State} {l : Latch} (hc : commandOf i = .pack) (h : exec i s = .next t)
    (hl : s.latch = some l) (hh : s.hazard = false) (he : statusErr t.status = 0#4) (hok : s.cfg.ok) :
    t.count.toNat = chunkCount l.len.toNat (usableBits (modeOf i)) ∧
      loadElements t l.dst.toNat t.count.toNat = pack (memRead s l.src.toNat l.len.toNat) (usableBits (modeOf i)) := by
  obtain ⟨hnone, rfl⟩ := succeed_of_err hc h hl hh he
  have hcount := toNat_count_succeed_pack hok hnone
  exact ⟨hcount, by rw [hcount, loadElements_succeed_pack hok hnone]⟩

/-- NBLOBS after ENCODE counts the blobs that the destination holds. -/
theorem encode_hands_on {i : Instr} {s t : State} {l : Latch} (hc : commandOf i = .encode) (h : exec i s = .next t)
    (hl : s.latch = some l) (hh : s.hazard = false) (he : statusErr t.status = 0#4) (hok : s.cfg.ok) :
    loadElements t l.dst.toNat (s.cfg.nElements * t.nblobs.toNat) =
      (encodePayload s.cfg.nElements (memRead s l.src.toNat l.len.toNat) (usableBits (modeOf i))).flatten := by
  obtain ⟨hnone, rfl⟩ := succeed_of_err hc h hl hh he
  rw [toNat_nblobs_succeed_encode hok hnone, loadElements_succeed_encode hok hnone]

/-! ## The results that rest on what was handed on -/

/-- ASSEMBLE of a source that holds the chunks of a payload (41_assembler.md R152). -/
theorem resultBytes_assemble_of_pack {m : Mode} {l : Latch} {s : State} {p : List Byte} {w : Nat}
    (hn : 0 < s.cfg.nElements) (h : loadElements s l.src.toNat l.count.toNat = pack p w) :
    resultBytes .assemble m l s = elementBytes (encodePayload s.cfg.nElements p w).flatten := by
  rw [resultBytes_assemble m l hn, h, encodePayload]

/-- UNPACK of a source that holds the chunks of a payload of LEN bytes (40_packer.md R113). -/
theorem resultBytes_unpack_of_pack {m : Mode} {l : Latch} {s : State} {p : List Byte} (hp : p.length = l.len.toNat)
    (h : loadElements s l.src.toNat l.count.toNat = pack p (usableBits m)) : resultBytes .unpack m l s = p := by
  have hw := usableBits_le m
  rw [resultBytes, h, ← hp, unpack_pack p (usableBits_pos m) (by omega)]
  rfl

/-- DECODE of a source that holds the blobs of a payload of LEN bytes (41_assembler.md R148). -/
theorem resultBytes_decode_of_encode {m : Mode} {l : Latch} {s : State} {p : List Byte} (hn : 0 < s.cfg.nElements)
    (hv : chunkCount l.len.toNat (usableBits m) ≤ s.cfg.nElements * l.nblobs.toNat) (hp : p.length = l.len.toNat)
    (h : loadElements s l.src.toNat (s.cfg.nElements * l.nblobs.toNat) =
      (encodePayload s.cfg.nElements p (usableBits m)).flatten) : resultBytes .decode m l s = p := by
  have hw := usableBits_le m
  have hchunks : (assemble s.cfg.nElements (pack p (usableBits m))).flatten.take
      (chunkCount l.len.toNat (usableBits m)) = pack p (usableBits m) := by
    rw [← hp, ← length_pack]
    exact take_flatten_assemble _ hn _
  rw [resultBytes_decode hv, h, encodePayload, hchunks, ← hp, unpack_pack p (usableBits_pos m) (by omega)]
  rfl

/-! ## The statements about several commands -/

/-- Settles O51: UNPACK reads the chunks where PACK left them. -/
theorem packThenUnpackRestores : Obligations.PackThenUnpackRestores := by
  intro pk un s t1 t2 l out hi hok hl hh h1 e1 h2 e2
  obtain ⟨hpk, hun, hmode⟩ : commandOf pk = .pack ∧ commandOf un = .unpack ∧ modeOf pk = modeOf un := by
    rcases hi with ⟨rfl, rfl⟩ | ⟨rfl, rfl⟩ <;> exact ⟨rfl, rfl, rfl⟩
  have hok1 : t1.cfg.ok := (cfg_of_exec h1).symm ▸ hok
  have hh1 : t1.hazard = false := hazard_of_exec h1
  obtain ⟨-, hchunks⟩ := pack_hands_on hpk h1 hl hh e1 hok
  rw [hmode] at hchunks
  exact (memRead_of_exec hun h2 rfl hh1 e2 hok1).trans (resultBytes_unpack_of_pack (length_memRead _ _ _) hchunks)

/-- Settles O52: DECODE reads the blobs where ENCODE left them. -/
theorem encodeThenDecodeRestores : Obligations.EncodeThenDecodeRestores := by
  intro enc dec s t1 t2 l out hi hok hl hh h1 e1 h2 e2
  obtain ⟨henc, hdec, hmode⟩ : commandOf enc = .encode ∧ commandOf dec = .decode ∧ modeOf enc = modeOf dec := by
    rcases hi with ⟨rfl, rfl⟩ | ⟨rfl, rfl⟩ <;> exact ⟨rfl, rfl, rfl⟩
  have hcfg : t1.cfg = s.cfg := cfg_of_exec h1
  have hok1 : t1.cfg.ok := hcfg.symm ▸ hok
  have hh1 : t1.hazard = false := hazard_of_exec h1
  have hblobs := encode_hands_on henc h1 hl hh e1 hok
  rw [hmode, ← hcfg] at hblobs
  obtain ⟨hnone, -⟩ := succeed_of_err hdec h2 rfl hh1 e2
  have henough := (valueError_decode_none_iff ..).1 (valueError_of_success hnone)
  exact (memRead_of_exec hdec h2 rfl hh1 e2 hok1).trans
    (resultBytes_decode_of_encode (nElements_pos hok1) henough (length_memRead _ _ _) hblobs)

/-- Settles O50: ASSEMBLE finds the chunks in the scratch area, and so leaves the elements of the same blobs. -/
theorem encodeIsPackThenAssemble : Obligations.EncodeIsPackThenAssemble := by
  intro enc pk asm s t0 t1 t2 l x hi ha hok hl hh h0 e0 h1 e1 h2 e2
  obtain ⟨henc, hpk, hmode⟩ : commandOf enc = .encode ∧ commandOf pk = .pack ∧ modeOf pk = modeOf enc := by
    rcases hi with ⟨rfl, rfl⟩ | ⟨rfl, rfl⟩ <;> exact ⟨rfl, rfl, rfl⟩
  have hasm : commandOf asm = .assemble := by rcases ha with rfl | rfl <;> rfl
  have hcfg : t1.cfg = s.cfg := (cfg_of_exec h1 :)
  have hok1 : t1.cfg.ok := hcfg.symm ▸ hok
  have hh1 : t1.hazard = false := hazard_of_exec h1
  obtain ⟨hcount, hchunks⟩ := pack_hands_on hpk h1 rfl hh e1 hok
  rw [hmode] at hcount hchunks
  have hmem := (memRead_of_exec hasm h2 rfl hh1 e2 hok1).trans
    (resultBytes_assemble_of_pack (nElements_pos hok1) hchunks)
  obtain ⟨he0, rfl⟩ := succeed_of_err henc h0 hl hh e0
  obtain ⟨-, rfl⟩ := succeed_of_err hasm h2 rfl hh1 e2
  have hnblobs : blobCount t1.cfg.nElements t1.count.toNat =
      blobCount s.cfg.nElements (chunkCount l.len.toNat (usableBits (modeOf enc))) := by rw [hcfg, hcount]
  have hsize : 32 * t1.cfg.nElements * blobCount t1.cfg.nElements t1.count.toNat =
      dstSize .encode (modeOf enc) s.cfg l := by rw [hnblobs, hcfg]; rfl
  have houtlen : (succeed .encode (modeOf enc) l s).outlen.toNat = dstSize .encode (modeOf enc) s.cfg l :=
    toNat_ofNat_of_le_max (dstSize_le_max hok he0)
  refine ⟨?_, congrArg (BitVec.ofNat 32) hnblobs, congrArg (BitVec.ofNat 32) hsize, ?_⟩
  · exact BitVec.eq_of_toNat_eq (hcount.trans (toNat_count_succeed_encode hok he0).symm)
  · rw [houtlen, memRead_succeed hok he0, ← hsize]
    refine hmem.trans ?_
    rw [hcfg]
    rfl

end Sys2Proof.Machine
end
